-- ==== Sys2Proof/Word.lean ====
section
/-! DEFINITION. The value types of the engine and the names of its block registers
(spec 00_scope.md R6, R10 to R12; 10_state.md R30). -/

namespace Sys2Proof

/-- One byte of a block (R10). -/
abbrev Byte := BitVec 8

/-- A 64-bit lane of a block (R12). -/
abbrev Lane := BitVec 64

/-- A 32-bit bus word: a command word, or the data of one host access (R6, R71). -/
abbrev Word := BitVec 32

/-- A block as the integer `int(v)` of R11: byte 0 is its most significant byte, so bit `i` of the
block is bit `i` of this number. -/
abbrev Block := BitVec 512

/-- A byte offset inside the 4 KiB register window (R7, R76). -/
abbrev Offset := BitVec 12

/-- The eight block registers by their architectural names (10_state.md R30). -/
inductive Reg where
  | h | n | sigma | m | iv | key | t0 | t1
  deriving DecidableEq, Repr

end Sys2Proof
end

