-- ==== Sys2Proof/Syntax.lean ====
section
/-! DEFINITION. The command set: one constructor per row of spec/opcode_table.json
(30_encoding.md R94). Register fields are names, immediates keep the width of their field (R90, R91);
KPAD's immediate is split into klen and ALIGN (45_hmac.md R211). -/

namespace Sys2Proof

inductive Instr where
  /-- R230: no operation -/
  | nop
  /-- R137: copy `ra` to `rd` -/
  | mov (rd ra : Reg)
  /-- R138: clear `rd` -/
  | clr (rd : Reg)
  /-- R139: block XOR -/
  | xor (rd ra rb : Reg)
  /-- R140: add modulo 2^512 -/
  | add (rd ra rb : Reg)
  /-- R141: add an immediate modulo 2^512 -/
  | addi (rd ra : Reg) (imm : BitVec 10)
  /-- R142: S-transform -/
  | sbox (rd ra : Reg)
  /-- R143: P-transform -/
  | perm (rd ra : Reg)
  /-- R144: L-transform -/
  | lin (rd ra : Reg)
  /-- R145: the composed transform -/
  | lps (rd ra : Reg)
  /-- R116: load round constant -/
  | ldc (rd : Reg) (imm : BitVec 10)
  /-- R163: the keyed transform E, key `ra`, value `rb` -/
  | e (rd ra rb : Reg)
  /-- R164: the compression G, chaining value `rd`, block `ra`, counter `rb` -/
  | g (rd ra rb : Reg)
  /-- R181: pad one block -/
  | pad (rd ra : Reg) (imm : BitVec 10)
  /-- R194: start a hash -/
  | hinit
  /-- R195: process one non-last block -/
  | hblk
  /-- R196: process the last block and finalise -/
  | hfin (imm : BitVec 10)
  /-- R197: re-enter the Accumulating state -/
  | hresume
  /-- R211: normalise a key of `klen` bytes; `align` is imm[7] -/
  | kpad (align : Bool) (klen : BitVec 7)
  /-- R212: take a finished digest as the key -/
  | khash
  /-- R213: form the inner pad and start the inner hash -/
  | hipad
  /-- R214: run the outer hash -/
  | houter
  /-- R231: clear all data state -/
  | wipe
  deriving DecidableEq, Repr

end Sys2Proof
end

