-- ==== Sys2Proof/WellFormed.lean ====
section
/-! DEFINITION. The error codes a command can be rejected with (60_exceptions.md R241) and the
well-formed commands: those whose immediate lies in the range R93 of 30_encoding.md gives it. -/

namespace Sys2Proof

/-- The error codes of R241; `none` is code 0. Codes 8 to 15 are never produced, so the type has none
of them. -/
inductive ErrCode where
  | none | illegalOp | reservedField | immRange | sequence | cmdBusy | keyLen | writeBusy
  deriving DecidableEq, Repr

/-- The immediate ranges of R93: LDC 1 to 12, PAD and HFIN 0 to 512, KPAD klen 1 to 64; ADDI takes
every value, and no other command has an immediate. -/
def Instr.wellFormed : Instr → Bool
  | .nop => true
  | .mov _ _ => true
  | .clr _ => true
  | .xor _ _ _ => true
  | .add _ _ _ => true
  | .addi _ _ _ => true
  | .sbox _ _ => true
  | .perm _ _ => true
  | .lin _ _ => true
  | .lps _ _ => true
  | .ldc _ imm => decide (1 ≤ imm.toNat ∧ imm.toNat ≤ 12)
  | .e _ _ _ => true
  | .g _ _ _ => true
  | .pad _ _ imm => decide (imm.toNat ≤ 512)
  | .hinit => true
  | .hblk => true
  | .hfin imm => decide (imm.toNat ≤ 512)
  | .hresume => true
  | .kpad _ klen => decide (1 ≤ klen.toNat ∧ klen.toNat ≤ 64)
  | .khash => true
  | .hipad => true
  | .houter => true
  | .wipe => true

/-- The command's immediate is in range (R93). -/
abbrev Instr.WellFormed (i : Instr) : Prop := i.wellFormed = true

end Sys2Proof
end

