-- ==== Sys2Proof/Decode.lean ====
section
/-! DEFINITION. The command word (30_encoding.md R90 to R96): the decoder, total on every 32-bit word
and refusing by the error code of R241, and after it the encoder. The decoder refuses what R248 tests
before any range: ILLEGAL_OP, then RESERVED_FIELD. A word whose immediate is merely out of range
decodes; `rangeFault` names its fault. -/

namespace Sys2Proof

/-- Register field value to register (R91, R30). -/
def Reg.ofBits (b : BitVec 3) : Reg :=
  match b.toNat with
  | 0 => .h
  | 1 => .n
  | 2 => .sigma
  | 3 => .m
  | 4 => .iv
  | 5 => .key
  | 6 => .t0
  | _ => .t1

/-- Register to register field value (R91, R30). -/
def Reg.toBits : Reg → BitVec 3
  | .h => 0
  | .n => 1
  | .sigma => 2
  | .m => 3
  | .iv => 4
  | .key => 5
  | .t0 => 6
  | .t1 => 7

/-- The fields of the one format (R90). -/
structure Fields where
  op : BitVec 8
  rd : BitVec 3
  ra : BitVec 3
  rb : BitVec 3
  imm : BitVec 10
  res : BitVec 5
  deriving DecidableEq, Repr

/-- The fields of a word: OP 7:0, RD 10:8, RA 13:11, RB 16:14, IMM 26:17, RES 31:27 (R90). -/
def Fields.ofWord (w : Word) : Fields where
  op := w.extractLsb' 0 8
  rd := w.extractLsb' 8 3
  ra := w.extractLsb' 11 3
  rb := w.extractLsb' 14 3
  imm := w.extractLsb' 17 10
  res := w.extractLsb' 27 5

/-- `word = OP | RD<<8 | RA<<11 | RB<<14 | IMM<<17`, with RES in the top five bits (R90). -/
def Fields.toWord (f : Fields) : Word :=
  f.res ++ f.imm ++ f.rb ++ f.ra ++ f.rd ++ f.op

/-- The operand forms of R92. -/
inductive Form where
  | none | d | da | dab | dai | di | i
  deriving DecidableEq, Repr

/-- The opcode map of R94: each opcode's form; an opcode outside the map is reserved (R95). -/
def formOf (op : BitVec 8) : Option Form :=
  match op.toNat with
  | 0x00 => some .none
  | 0x01 => some .da
  | 0x02 => some .d
  | 0x03 => some .dab
  | 0x04 => some .dab
  | 0x05 => some .dai
  | 0x06 => some .da
  | 0x07 => some .da
  | 0x08 => some .da
  | 0x09 => some .da
  | 0x0A => some .di
  | 0x10 => some .dab
  | 0x11 => some .dab
  | 0x18 => some .dai
  | 0x20 => some .none
  | 0x21 => some .none
  | 0x22 => some .i
  | 0x23 => some .none
  | 0x30 => some .i
  | 0x31 => some .none
  | 0x32 => some .none
  | 0x33 => some .none
  | 0x3F => some .none
  | _ => Option.none

/-- R92: every field the form marks 0 is zero. -/
def unusedClear (form : Form) (f : Fields) : Bool :=
  match form with
  | .none => f.rd == 0 && f.ra == 0 && f.rb == 0 && f.imm == 0
  | .d => f.ra == 0 && f.rb == 0 && f.imm == 0
  | .da => f.rb == 0 && f.imm == 0
  | .dab => f.imm == 0
  | .dai => f.rb == 0
  | .di => f.ra == 0 && f.rb == 0
  | .i => f.rd == 0 && f.ra == 0 && f.rb == 0

/-- R92, R93, R248: RES is zero, the unused fields are zero, and KPAD's imm[9:8] is zero. -/
def reservedClear (form : Form) (f : Fields) : Bool :=
  f.res == 0 && unusedClear form f && (f.op != 0x30 || f.imm.extractLsb' 8 2 == 0)

/-- The command an opcode of R94 names, over its fields (R91). Only opcodes of R94 reach it; the
last arm is WIPE's, 0x3F. -/
def assemble (f : Fields) : Instr :=
  let rd := Reg.ofBits f.rd
  let ra := Reg.ofBits f.ra
  let rb := Reg.ofBits f.rb
  match f.op.toNat with
  | 0x00 => .nop
  | 0x01 => .mov rd ra
  | 0x02 => .clr rd
  | 0x03 => .xor rd ra rb
  | 0x04 => .add rd ra rb
  | 0x05 => .addi rd ra f.imm
  | 0x06 => .sbox rd ra
  | 0x07 => .perm rd ra
  | 0x08 => .lin rd ra
  | 0x09 => .lps rd ra
  | 0x0A => .ldc rd f.imm
  | 0x10 => .e rd ra rb
  | 0x11 => .g rd ra rb
  | 0x18 => .pad rd ra f.imm
  | 0x20 => .hinit
  | 0x21 => .hblk
  | 0x22 => .hfin f.imm
  | 0x23 => .hresume
  | 0x30 => .kpad (f.imm.getLsbD 7) (f.imm.extractLsb' 0 7)
  | 0x31 => .khash
  | 0x32 => .hipad
  | 0x33 => .houter
  | _ => .wipe

/-- The decoder: a command, or the first decode error of R248 (ILLEGAL_OP, then RESERVED_FIELD). -/
def decode (w : Word) : Except ErrCode Instr :=
  let f := Fields.ofWord w
  match formOf f.op with
  | Option.none => .error .illegalOp
  | some form => if reservedClear form f then .ok (assemble f) else .error .reservedField

/-- The range faults of R93, R248: IMM_RANGE for LDC, PAD and HFIN, KEY_LEN for KPAD. -/
def rangeFault (i : Instr) : ErrCode :=
  match i with
  | .ldc _ imm => if 1 ≤ imm.toNat ∧ imm.toNat ≤ 12 then .none else .immRange
  | .pad _ _ imm => if imm.toNat ≤ 512 then .none else .immRange
  | .hfin imm => if imm.toNat ≤ 512 then .none else .immRange
  | .kpad _ klen => if 1 ≤ klen.toNat ∧ klen.toNat ≤ 64 then .none else .keyLen
  | .nop => .none
  | .mov _ _ => .none
  | .clr _ => .none
  | .xor _ _ _ => .none
  | .add _ _ _ => .none
  | .addi _ _ _ => .none
  | .sbox _ _ => .none
  | .perm _ _ => .none
  | .lin _ _ => .none
  | .lps _ _ => .none
  | .e _ _ _ => .none
  | .g _ _ _ => .none
  | .hinit => .none
  | .hblk => .none
  | .hresume => .none
  | .khash => .none
  | .hipad => .none
  | .houter => .none
  | .wipe => .none

/-- The fields of a command, from R90, R92 and R94; KPAD's immediate is `klen | ALIGN<<7` (R211). -/
def fieldsOf (i : Instr) : Fields :=
  match i with
  | .nop => ⟨0x00, 0, 0, 0, 0, 0⟩
  | .mov rd ra => ⟨0x01, rd.toBits, ra.toBits, 0, 0, 0⟩
  | .clr rd => ⟨0x02, rd.toBits, 0, 0, 0, 0⟩
  | .xor rd ra rb => ⟨0x03, rd.toBits, ra.toBits, rb.toBits, 0, 0⟩
  | .add rd ra rb => ⟨0x04, rd.toBits, ra.toBits, rb.toBits, 0, 0⟩
  | .addi rd ra imm => ⟨0x05, rd.toBits, ra.toBits, 0, imm, 0⟩
  | .sbox rd ra => ⟨0x06, rd.toBits, ra.toBits, 0, 0, 0⟩
  | .perm rd ra => ⟨0x07, rd.toBits, ra.toBits, 0, 0, 0⟩
  | .lin rd ra => ⟨0x08, rd.toBits, ra.toBits, 0, 0, 0⟩
  | .lps rd ra => ⟨0x09, rd.toBits, ra.toBits, 0, 0, 0⟩
  | .ldc rd imm => ⟨0x0A, rd.toBits, 0, 0, imm, 0⟩
  | .e rd ra rb => ⟨0x10, rd.toBits, ra.toBits, rb.toBits, 0, 0⟩
  | .g rd ra rb => ⟨0x11, rd.toBits, ra.toBits, rb.toBits, 0, 0⟩
  | .pad rd ra imm => ⟨0x18, rd.toBits, ra.toBits, 0, imm, 0⟩
  | .hinit => ⟨0x20, 0, 0, 0, 0, 0⟩
  | .hblk => ⟨0x21, 0, 0, 0, 0, 0⟩
  | .hfin imm => ⟨0x22, 0, 0, 0, imm, 0⟩
  | .hresume => ⟨0x23, 0, 0, 0, 0, 0⟩
  | .kpad align klen => ⟨0x30, 0, 0, 0, 0#2 ++ BitVec.ofBool align ++ klen, 0⟩
  | .khash => ⟨0x31, 0, 0, 0, 0, 0⟩
  | .hipad => ⟨0x32, 0, 0, 0, 0, 0⟩
  | .houter => ⟨0x33, 0, 0, 0, 0, 0⟩
  | .wipe => ⟨0x3F, 0, 0, 0, 0, 0⟩

/-- The encoder (R90): the command's one word. -/
def encode (i : Instr) : Word := (fieldsOf i).toWord

/-- What the decoder reads from an instruction whose bits, numbered as spec/opcode_table.json numbers
them, are `w`. Every command is exactly one 32-bit word (R96), so a longer row has none. -/
def decodeTableWord (nbits w : Nat) : Option Instr :=
  if nbits ≤ 32 then (decode (BitVec.ofNat 32 (w % 2 ^ nbits))).toOption else Option.none

end Sys2Proof
end

