-- ==== Sys2Proof/Machine/Bytes.lean ====
section
/-! DEFINITION. Blocks as bytes, lanes and bus words (00_scope.md R10 to R12; 20_memory.md R70, R71). -/

namespace Sys2Proof.Machine

/-- `v.byte(k)`, k = 0 to 63: byte 0 is the most significant (R10). -/
def byte (v : Block) (k : Nat) : Byte := v.extractLsb' (8 * (63 - k)) 8

/-- The big-endian number of the bytes `f 0 … f (n-1)` (R11). -/
def packBytes (f : Nat → Byte) : Nat → Nat
  | 0 => 0
  | n + 1 => packBytes f n * 256 + (f n).toNat

/-- `blk(x)`: the block whose integer is `x mod 2^512` (R11, R136). -/
def blk (x : Nat) : Block := BitVec.ofNat 512 x

/-- The block with `byte(k) = f k` (R10, R11). -/
def ofBytes (f : Nat → Byte) : Block := blk (packBytes f 64)

/-- `c^64`: the block of 64 bytes equal to `c` (R11). -/
def fill (c : Byte) : Block := ofBytes fun _ => c

/-- `lane(v, j)`, j = 0 to 7: bytes 8j to 8j+7, big-endian (R12). -/
def lane (v : Block) (j : Nat) : Lane := v.extractLsb' (64 * (7 - j)) 64

/-- The big-endian number of the lanes `f 0 … f (n-1)` (R12). -/
def packLanes (f : Nat → Lane) : Nat → Nat
  | 0 => 0
  | n + 1 => packLanes f n * 2 ^ 64 + (f n).toNat

/-- The block with `lane j = f j` (R12). -/
def ofLanes (f : Nat → Lane) : Block := blk (packLanes f 8)

/-- Bus word `w` of a block, w = 0 to 15: bytes 4w to 4w+3, byte 4w in bits 31:24 (R71). -/
def busWord (v : Block) (w : Nat) : Word :=
  byte v (4 * w) ++ byte v (4 * w + 1) ++ byte v (4 * w + 2) ++ byte v (4 * w + 3)

/-- Bytes 4w to 4w+3 replaced by the bytes of `x`, byte 4w from bits 31:24, and the other 60 bytes
unchanged (10_state.md R41). -/
def setBusWord (v : Block) (w : Nat) (x : Word) : Block :=
  ofBytes fun k => if k / 4 = w then x.extractLsb' (8 * (3 - k % 4)) 8 else byte v k

end Sys2Proof.Machine
end

