-- ==== Sys2Proof/Config.lean ====
section
/-! DEFINITION. What the platform or the implementation fixes (BASE and LAT, 00_scope.md R7) and the
free values of what the spec leaves unspecified (70_reset_and_hazards.md R278; 10_state.md R50).
Every constant here that has no body is free: no proof can see a value of it. -/

namespace Sys2Proof

/-- The sequencer's hidden scratch state (10_state.md R50): no host access reaches it and no command
reads it before writing it. -/
structure Scratch where
  /-- the E working key -/
  eKey : Block
  /-- the E working value -/
  eValue : Block
  /-- the E round counter, 0 to 12 (R34) -/
  eRound : Fin 13
  /-- the G key `lps(xor(h, N))` -/
  gKey : Block
  /-- the padded block of HFIN -/
  padded : Block
  /-- the `inner` block of HOUTER -/
  inner : Block
  /-- the `opad` block of HOUTER -/
  opad : Block
  /-- the `ipad` block of HIPAD -/
  ipad : Block
  /-- the micro-step position within a multi-compression command (the spec gives no width) -/
  micro : Nat
  deriving DecidableEq, Repr, Inhabited

/-- The zero scratch that WIPE leaves (46_system.md R231). -/
def Scratch.zero : Scratch := ⟨0, 0, 0, 0, 0, 0, 0, 0, 0⟩

/-- FREE VALUE (log entry 4): the word draw `n` of ANY_32 gives in engine number `id`, for a read of a
block register or of DIGEST while BUSY = 1 (R278). -/
opaque Config.anyWord : (id n : Nat) → Word

/-- FREE VALUE (log entry 3): the scratch state draw `n` of engine number `id` leaves after a command
(R50). -/
opaque Config.anyScratch : (id n : Nat) → Scratch

/-- PARAMETER (log entry 6): BASE, the physical address of the window the platform puts at 4 KiB page
`page`. BASE is 4 KiB-aligned (R7, R76), so it is given by its page. -/
def Config.base (page : Nat) : Nat := page * 0x1000

/-- PARAMETER (log entry 5): the cycles a command takes beyond its first. By its type it depends on
the command word and CTRL alone (R280). -/
opaque Config.extraCycles : (id : Nat) → Word → BitVec 4 → Nat

/-- LAT, the cycles from acceptance to completion: at least 1 (R7, R280). No rule depends on it. -/
def Config.lat (id : Nat) (word : Word) (ctrl : BitVec 4) : Nat :=
  Config.extraCycles id word ctrl + 1

end Sys2Proof
end

