-- ==== Sys2Proof/Machine/State.lean ====
section
/-! DEFINITION. The state of the engine (10_state.md), the reasons a step can stop, and the state
right after reset (10_state.md R51; 70_reset_and_hazards.md R270). -/

namespace Sys2Proof.Machine

/-- The block register file: eight 512-bit registers, no banks, none hard-wired (10_state.md R30). -/
structure RegFile where
  /-- chaining value; the digest when HSTATE = DONE -/
  h : Block
  /-- processed-bit counter -/
  n : Block
  /-- checksum -/
  sigma : Block
  /-- message block input -/
  m : Block
  /-- initialisation vector -/
  iv : Block
  /-- normalised HMAC key -/
  key : Block
  /-- general -/
  t0 : Block
  /-- general -/
  t1 : Block
  deriving DecidableEq, Repr

/-- HSTATE: IDLE = 0, ACCUM = 1, DONE = 2; value 3 is never produced (10_state.md R35). -/
inductive HState where
  | idle | accum | done
  deriving DecidableEq, Repr

/-- What a host access does: read, or write the value `v` (20_memory.md R84). -/
inductive AccessKind where
  | read
  | write (v : Word)
  deriving DecidableEq, Repr

/-- One host access that reaches the window, at window offset `off` and `width` bits wide
(20_memory.md R73, R84). -/
structure Access where
  kind : AccessKind
  off : Offset
  width : Nat
  deriving DecidableEq, Repr

/-- One move of an agent (00_scope.md R15): a host access, the sequencer's completion of the pending
command, or a change of the reset input (70_reset_and_hazards.md R270). -/
inductive Move where
  | host (a : Access)
  | sequencer
  | reset (asserted : Bool)
  deriving DecidableEq, Repr

/-- Everything the spec gives the machine, and four fields of the model's own. STATUS.BUSY is the
presence of a pending command (10_state.md R46), IRQ a wire (R47), DIGEST a view of H (R41), ID and
the tables constants (R36, R44): none of them is stored. -/
structure State where
  /-- the block registers (R30) -/
  regs : RegFile
  /-- the four stored bits of CTRL: IE, BNDPAD, VARIANT, IPAD35 from bit 0 up (R37) -/
  ctrl : BitVec 4
  /-- the word of the command accepted and not yet completed (R46) -/
  pending : Option Word
  /-- STATUS.DONE (R39) -/
  done : Bool
  /-- STATUS.ERR (R39) -/
  err : Bool
  /-- STATUS.HSTATE (R35, R39) -/
  hstate : HState
  /-- STATUS.ERRCODE (R39, 60_exceptions.md R241) -/
  errcode : ErrCode
  /-- ERRCMD (R40) -/
  errcmd : Word
  /-- the sequencer's scratch state (R50) -/
  scratch : Scratch
  /-- the level of the reset input (70_reset_and_hazards.md R270) -/
  resetAsserted : Bool
  /-- MODEL'S OWN (log entry 1): the moves of the agents still to come, the next one first -/
  schedule : List Move
  /-- MODEL'S OWN (log entry 2): the word the host's latest HostRead returned (20_memory.md R84) -/
  readData : Word
  /-- MODEL'S OWN (log entry 4): how many free values have been drawn -/
  draws : Nat
  /-- MODEL'S OWN (log entry 11): the number of this engine among the engines of its platform
  (60_exceptions.md R255): it picks the engine's own free values and nothing else reads it -/
  engineId : Nat
  deriving DecidableEq, Repr

/-- The reasons a step stops with a fault. -/
inductive Fault where
  /-- Raised by a host access that is not 32 bits wide or not at a multiple of 4: the bus error that
  20_memory.md R73 tells a model to treat as a fault of the host's step. SAFE: the engine's state is
  unchanged and the host could go on. -/
  | busError
  /-- Raised by a step taken while reset is asserted, other than a change of the reset input:
  70_reset_and_hazards.md R270 defines no step there (93_implementation_defined.md U14, stuck). SAFE:
  the model stops where the spec has no step. -/
  | resetAsserted
  deriving DecidableEq, Repr

/-- The reasons a step is refused. -/
inductive Refusal where
  /-- Raised only by an arm of exec whose instruction has no meaning yet; no arm raises it now. SAFE. -/
  | notModelled (mnemonic : String)
  deriving DecidableEq, Repr

/-- The block registers at reset: every one 0^512 (10_state.md R31, R51). -/
def RegFile.reset : RegFile := ⟨0, 0, 0, 0, 0, 0, 0, 0⟩

/-- The state when reset is released (10_state.md R51; 70_reset_and_hazards.md R270). The scratch is
unspecified there and zero here (log entry 3); the schedule is empty, readData, draws and
engineId are zero (log entries 1, 2, 4, 11). -/
def State.reset : State where
  regs := .reset
  ctrl := 0
  pending := none
  done := false
  err := false
  hstate := .idle
  errcode := .none
  errcmd := 0
  scratch := .zero
  resetAsserted := false
  schedule := []
  readData := 0
  draws := 0
  engineId := 0

end Sys2Proof.Machine
end

