-- ==== Sys2Proof/Machine/Ops.lean ====
section
/-! DEFINITION. The named operations every command uses: block registers, the chain state, the
completion of a command, and the engine's one exception: the rejection of a command with its error
record, and the return from it. -/

namespace Sys2Proof.Machine

/-- `B[r]` (00_scope.md R13). -/
def RegFile.get (f : RegFile) (r : Reg) : Block :=
  match r with
  | .h => f.h
  | .n => f.n
  | .sigma => f.sigma
  | .m => f.m
  | .iv => f.iv
  | .key => f.key
  | .t0 => f.t0
  | .t1 => f.t1

/-- `B[r] <- v` (00_scope.md R13). -/
def RegFile.set (f : RegFile) (r : Reg) (v : Block) : RegFile :=
  match r with
  | .h => { f with h := v }
  | .n => { f with n := v }
  | .sigma => { f with sigma := v }
  | .m => { f with m := v }
  | .iv => { f with iv := v }
  | .key => { f with key := v }
  | .t0 => { f with t0 := v }
  | .t1 => { f with t1 := v }

/-- `B[r]` of a state: the one reading of a block register. -/
def State.reg (s : State) (r : Reg) : Block := s.regs.get r

/-- `B[r] <- v` on a state: the one writing of a block register. -/
def State.setReg (s : State) (r : Reg) (v : Block) : State := { s with regs := s.regs.set r v }

/-- STATUS.BUSY = 1 exactly when a pending command exists (10_state.md R46). -/
def State.busy (s : State) : Bool := s.pending.isSome

/-- HSTATE <- x. -/
def State.setHState (s : State) (x : HState) : State := { s with hstate := x }

/-- The source's ChainState (h, N, Σ) (10_state.md R32). -/
structure Chain where
  h : Block
  n : Block
  sigma : Block
  deriving DecidableEq, Repr

/-- The chain state held in H, N and SIGMA (10_state.md R32). -/
def State.chain (s : State) : Chain := ⟨s.reg .h, s.reg .n, s.reg .sigma⟩

/-- `(B[H], B[N], B[SIGMA]) <- c`. -/
def State.setChain (s : State) (c : Chain) : State :=
  ((s.setReg .h c.h).setReg .n c.n).setReg .sigma c.sigma

/-- The end of a completed command: BUSY <- 0, DONE <- 1 (60_exceptions.md R240), the scratch left
holding `c`. -/
def finishWith (c : Scratch) (s : State) : State :=
  { s with pending := none, done := true, scratch := c }

/-- The end of a completed command whose scratch content is unspecified (10_state.md R50): a fresh
draw (log entry 3). -/
def finish (s : State) : State :=
  { finishWith (Config.anyScratch s.engineId s.draws) s with draws := s.draws + 1 }

/-- `RecordError(code, val)`: only the first error since ERR was cleared is kept (60_exceptions.md
R242). -/
def recordError (code : ErrCode) (val : Word) (s : State) : State :=
  if s.err then s else { s with err := true, errcode := code, errcmd := val }

/-- TAKING THE EXCEPTION. A command word `v` is rejected: the error is recorded, DONE is set, BUSY is 0,
and nothing else changes (60_exceptions.md R240, R244, R249). -/
def reject (code : ErrCode) (v : Word) (s : State) : State :=
  { recordError code v s with done := true, pending := none }

/-- RETURN FROM IT. The host's write of 1 to STATUS bit 2 clears ERR, ERRCODE and ERRCMD together
(60_exceptions.md R250; 10_state.md R39). -/
def clearError (s : State) : State := { s with err := false, errcode := .none, errcmd := 0 }

/-- `raise Error(code)` in the pseudocode of command `i` (00_scope.md R13): its word is rejected. -/
def raise (code : ErrCode) (i : Instr) (s : State) : Host.Outcome State Fault Refusal :=
  .next (reject code (encode i) s)

end Sys2Proof.Machine
end

