-- ==== Sys2Proof/Machine/Flags.lean ====
section
/-! DEFINITION. The control and status registers (10_state.md R36 to R41): their words, their fields, the
flag computations, the IRQ wire and the DIGEST view. The engine has no arithmetic condition codes
(R43). -/

namespace Sys2Proof.Machine

/-- ID always reads 0x53545207 (R36). -/
def idWord : Word := 0x53545207

/-- CTRL.IE, bit 0 (R37). -/
def State.ie (s : State) : Bool := s.ctrl.getLsbD 0

/-- CTRL.BNDPAD, bit 1 (R37). -/
def State.bndpad (s : State) : Bool := s.ctrl.getLsbD 1

/-- CTRL.VARIANT, bit 2 (R37). -/
def State.variant (s : State) : Bool := s.ctrl.getLsbD 2

/-- CTRL.IPAD35, bit 3 (R37). -/
def State.ipad35 (s : State) : Bool := s.ctrl.getLsbD 3

/-- CTRL as read: bits 31:4 read 0 (R37). -/
def ctrlWord (s : State) : Word := s.ctrl.setWidth 32

/-- `CTRL <- v & 0xF` (20_memory.md R84; R37). -/
def writeCtrl (v : Word) (s : State) : State := { s with ctrl := v.setWidth 4 }

/-- The value of HSTATE (R35). -/
def hstateBits (x : HState) : BitVec 2 :=
  match x with
  | .idle => 0
  | .accum => 1
  | .done => 2

/-- The value of ERRCODE (60_exceptions.md R241). -/
def errcodeBits (c : ErrCode) : BitVec 4 :=
  match c with
  | .none => 0
  | .illegalOp => 1
  | .reservedField => 2
  | .immRange => 3
  | .sequence => 4
  | .cmdBusy => 5
  | .keyLen => 6
  | .writeBusy => 7

/-- STATUS as read: BUSY bit 0, DONE bit 1, ERR bit 2, HSTATE 5:4, ERRCODE 11:8, the rest 0 (R39). -/
def statusWord (s : State) : Word :=
  0#20 ++ errcodeBits s.errcode ++ 0#2 ++ hstateBits s.hstate ++ 0#1 ++ BitVec.ofBool s.err ++
    BitVec.ofBool s.done ++ BitVec.ofBool s.busy

/-- A host write to STATUS: bit 1 written as 1 clears DONE, bit 2 clears the error record, every other
bit is ignored (R39; 20_memory.md R84). -/
def writeStatus (v : Word) (s : State) : State :=
  let s1 := if v.getLsbD 1 then { s with done := false } else s
  if v.getLsbD 2 then clearError s1 else s1

/-- The IRQ wire: `IRQ = STATUS.DONE AND CTRL.IE` at every instant (R47; 60_exceptions.md R246). -/
def irq (s : State) : Bool := s.done && s.ie

/-- DIGEST: H, with bytes 32 to 63 shown as 0 when CTRL.VARIANT = 1 (R41). -/
def digest (s : State) : Block :=
  ofBytes fun k => if s.variant && decide (32 ≤ k) then 0 else byte (s.reg .h) k

end Sys2Proof.Machine
end

