-- ==== Sys2Proof/Machine/Protocol.lean ====
section
/-! DEFINITION. The command protocol at a write to CMD: Check and Present (60_exceptions.md R240, R248). -/

namespace Sys2Proof.Machine

/-- The sequencing test of R248: HBLK and HFIN need HSTATE = ACCUM, KHASH and HOUTER need DONE. -/
def sequenceFault (i : Instr) (x : HState) : ErrCode :=
  match i with
  | .hblk => if x = .accum then .none else .sequence
  | .hfin _ => if x = .accum then .none else .sequence
  | .khash => if x = .done then .none else .sequence
  | .houter => if x = .done then .none else .sequence
  | .nop => .none
  | .mov _ _ => .none
  | .clr _ => .none
  | .xor _ _ _ => .none
  | .add _ _ _ => .none
  | .addi _ _ _ => .none
  | .sbox _ _ => .none
  | .perm _ _ => .none
  | .lin _ _ => .none
  | .lps _ _ => .none
  | .ldc _ _ => .none
  | .e _ _ _ => .none
  | .g _ _ _ => .none
  | .pad _ _ _ => .none
  | .hinit => .none
  | .hresume => .none
  | .kpad _ _ => .none
  | .hipad => .none
  | .wipe => .none

/-- `Check(v)` (R248): the decode errors, then the range, then the sequence; it depends on the word and
HSTATE alone. -/
def check (v : Word) (x : HState) : ErrCode :=
  match decode v with
  | .error code => code
  | .ok i => if rangeFault i = .none then sequenceFault i x else rangeFault i

/-- Acceptance of a command: DONE <- 0, BUSY <- 1, pending <- v (R240; 10_state.md R46). -/
def accept (v : Word) (s : State) : State := { s with done := false, pending := some v }

/-- `Present(v)`, the effect of a host write of `v` to CMD (R240, R243). -/
def present (v : Word) (s : State) : State :=
  if s.busy then recordError .cmdBusy v s
  else if check v s.hstate = .none then accept v s
  else reject (check v s.hstate) v s

end Sys2Proof.Machine
end

