-- ==== Sys2Proof/Machine/Bus.lean ====
section
/-! DEFINITION. The host's accesses to the register window (20_memory.md R73 to R79, R84; the map of
10_state.md section 3). -/

namespace Sys2Proof.Machine

/-- The offset lies in the block registers, 0x100 to 0x2FF (10_state.md section 3). -/
def inBlocks (off : Offset) : Bool := decide (0x100 ≤ off.toNat ∧ off.toNat < 0x300)

/-- The offset lies in DIGEST, 0x300 to 0x33F (10_state.md section 3). -/
def inDigest (off : Offset) : Bool := decide (0x300 ≤ off.toNat ∧ off.toNat < 0x340)

/-- The block register at an offset of 0x100 to 0x2FF: `r = (off - 0x100) >> 6` (R84). -/
def regAt (off : Offset) : Reg := Reg.ofBits (BitVec.ofNat 3 ((off.toNat - 0x100) / 64))

/-- The word of its block at an offset: `w = ((off - base) >> 2) & 15`, for a base that is a multiple
of 64 (R84). -/
def wordAt (off : Offset) : Nat := off.toNat / 4 % 16

/-- The value `HostRead(off)` returns, or `none` where R84 returns ANY_32: a block register word or a
DIGEST word while BUSY = 1 (70_reset_and_hazards.md R278). -/
def windowRead (s : State) (off : Offset) : Option Word :=
  if off = 0x000 then some idWord
  else if off = 0x004 then some (ctrlWord s)
  else if off = 0x008 then some 0
  else if off = 0x00C then some (statusWord s)
  else if off = 0x010 then some s.errcmd
  else if inBlocks off then
    if s.busy then none else some (busWord (s.reg (regAt off)) (wordAt off))
  else if inDigest off then
    if s.busy then none else some (busWord (digest s) (wordAt off))
  else some 0

/-- `HostRead(off)` (R84): the value goes to the host, and nothing else changes (R75). -/
def hostRead (off : Offset) (s : State) : State :=
  match windowRead s off with
  | some w => { s with readData := w }
  | none => { s with readData := Config.anyWord s.engineId s.draws, draws := s.draws + 1 }

/-- `HostWrite(off, v)` (R84). -/
def hostWrite (off : Offset) (v : Word) (s : State) : State :=
  if off = 0x008 then present v s
  else if off = 0x00C then writeStatus v s
  else if off = 0x004 ∨ inBlocks off = true then
    if s.busy then recordError .writeBusy (off.setWidth 32) s
    else if off = 0x004 then writeCtrl v s
    else s.setReg (regAt off) (setBusWord (s.reg (regAt off)) (wordAt off) v)
  else s

/-- R73: the access is 32 bits wide at an offset that is a multiple of 4. -/
def aligned (a : Access) : Bool := decide (a.width = 32 ∧ a.off.toNat % 4 = 0)

/-- One host access: performed if it is a whole aligned word, else a bus error (R73). -/
def hostAccess (a : Access) (s : State) : Host.Outcome State Fault Refusal :=
  if aligned a then
    match a.kind with
    | .read => .next (hostRead a.off s)
    | .write v => .next (hostWrite a.off v s)
  else .fault .busError

/-- The offset a physical address has in the window `BASE .. BASE + 0xFFF` at `page`, or none outside it
(R76). -/
def windowOffset (page addr : Nat) : Option Offset :=
  if Config.base page ≤ addr ∧ addr < Config.base page + 0x1000 then
    some (BitVec.ofNat 12 (addr - Config.base page))
  else none

/-- The move a platform access at a physical address is to the engine at `page`: none if it does not reach
its window (R76, R77). -/
def moveAtAddress (page : Nat) (kind : AccessKind) (addr width : Nat) : Option Move :=
  (windowOffset page addr).map fun off => .host ⟨kind, off, width⟩

end Sys2Proof.Machine
end

