-- ==== Sys2Proof/Machine/Operands.lean ====
section
/-! DEFINITION. The operand forms of 30_encoding.md R91 and R92: what a register operand and an
immediate operand denote, and the shapes of a command that writes one register. Every operand is
read from the state before the command, before any result is written (00_scope.md R14). -/

namespace Sys2Proof.Machine

/-- The immediate operand: the unsigned value of IMM, never sign-extended or scaled (R91). -/
def immValue (imm : BitVec 10) : Nat := imm.toNat

/-- The immediate as a block, `blk(imm)` (41_block_algebra.md R141). -/
def immBlock (imm : BitVec 10) : Block := blk (immValue imm)

/-- `klen`, the key length in bytes of KPAD (45_hmac.md R211). -/
def klenValue (klen : BitVec 7) : Nat := klen.toNat

/-- A command that writes the one value `v` to `rd` and completes. -/
def writeResult (rd : Reg) (v : Block) (s : State) : Host.Outcome State Fault Refusal :=
  .next (finish (s.setReg rd v))

/-- Forms `da` and `dai`: `B[rd] <- f(B[ra])`. -/
def unary (f : Block → Block) (rd ra : Reg) (s : State) : Host.Outcome State Fault Refusal :=
  writeResult rd (f (s.reg ra)) s

/-- Form `dab`: `B[rd] <- f(B[ra], B[rb])`. -/
def binary (f : Block → Block → Block) (rd ra rb : Reg) (s : State) :
    Host.Outcome State Fault Refusal :=
  writeResult rd (f (s.reg ra) (s.reg rb)) s

/-- The precondition of command `i` on HSTATE: where it does not hold the command is rejected with
SEQUENCE (44_hash_engine.md R190). -/
def requireHState (want : HState) (i : Instr) (s : State)
    (go : Host.Outcome State Fault Refusal) : Host.Outcome State Fault Refusal :=
  if s.hstate = want then go else raise .sequence i s

/-- The immediate range of command `i`: a value above `most` is rejected with IMM_RANGE
(30_encoding.md R93). -/
def requireImmAtMost (most : Nat) (imm : BitVec 10) (i : Instr) (s : State)
    (go : Host.Outcome State Fault Refusal) : Host.Outcome State Fault Refusal :=
  if immValue imm ≤ most then go else raise .immRange i s

end Sys2Proof.Machine
end

