-- ==== Sys2Proof/Machine/Tables.lean ====
section
/-! DEFINITION. The four read-only tables (10_state.md R44; 40_transform_tables.md R110 to R114), their
values as the spec prints them, and the lane table R113 derives from ROM_A. -/

namespace Sys2Proof.Machine

/-- The rows of R110's table: row `hi` holds the sixteen entries `ROM_S[16*hi + lo]`, the entry of
column 0 in the most significant byte, in the order the table prints them. -/
def romSRows : List (BitVec 128) :=
  [0xFCEEDD11CF6E3116FBC4FADA23C5044D#128,
   0xE977F0DB932E99BA1736F1BB14CD5FC1#128,
   0xF918655AE25CEF21811C3C428B018E4F#128,
   0x058402AEE36A8FA0060BED987FD4D31F#128,
   0xEB342C51EAC848ABF22A68A2FD3ACECC#128,
   0xB5700E56080C7612BF7213479CB75D87#128,
   0x15A19629107B9AC7F391786F9D9EB2B1#128,
   0x3275193DFF358A7E6D54C680C3BD0D57#128,
   0xDFF524A93EA843C9D779D6F67C22B903#128,
   0xE00FECDE7A94B0BCDCE828504E330A4A#128,
   0xA79760731E0062441AB83882649F2641#128,
   0xAD454692275E552F8CA3A57D69D5953B#128,
   0x0758B34086AC1DF730376BE488D9E789#128,
   0xE11B83494C3FF8FE8D53AA90CAD88561#128,
   0x207167A42D2B095BCB9B25D0BEE56C52#128,
   0x59A674D2E6F4B4C0D166AFC2394B63B6#128]

/-- `ROM_S[b]` (R110): row `hi`, column `lo` of the table, for `b = 16*hi + lo`. -/
def romS (b : Byte) : Byte :=
  (romSRows.getD (b.toNat / 16) 0).extractLsb' (8 * (15 - b.toNat % 16)) 8

/-- `ROM_TAU[i] = 8*(i mod 8) + floor(i / 8)` (R111). -/
def romTau (i : Nat) : Nat := 8 * (i % 8) + i / 8

/-- `ROM_A`, rows A[0] to A[63] (R112). -/
def romARows : List Lane :=
  [0x8E20FAA72BA0B470#64, 0x47107DDD9B505A38#64, 0xAD08B0E0C3282D1C#64, 0xD8045870EF14980E#64,
   0x6C022C38F90A4C07#64, 0x3601161CF205268D#64, 0x1B8E0B0E798C13C8#64, 0x83478B07B2468764#64,
   0xA011D380818E8F40#64, 0x5086E740CE47C920#64, 0x2843FD2067ADEA10#64, 0x14AFF010BDD87508#64,
   0x0AD97808D06CB404#64, 0x05E23C0468365A02#64, 0x8C711E02341B2D01#64, 0x46B60F011A83988E#64,
   0x90DAB52A387AE76F#64, 0x486DD4151C3DFDB9#64, 0x24B86A840E90F0D2#64, 0x125C354207487869#64,
   0x092E94218D243CBA#64, 0x8A174A9EC8121E5D#64, 0x4585254F64090FA0#64, 0xACCC9CA9328A8950#64,
   0x9D4DF05D5F661451#64, 0xC0A878A0A1330AA6#64, 0x60543C50DE970553#64, 0x302A1E286FC58CA7#64,
   0x18150F14B9EC46DD#64, 0x0C84890AD27623E0#64, 0x0642CA05693B9F70#64, 0x0321658CBA93C138#64,
   0x86275DF09CE8AAA8#64, 0x439DA0784E745554#64, 0xAFC0503C273AA42A#64, 0xD960281E9D1D5215#64,
   0xE230140FC0802984#64, 0x71180A8960409A42#64, 0xB60C05CA30204D21#64, 0x5B068C651810A89E#64,
   0x456C34887A3805B9#64, 0xAC361A443D1C8CD2#64, 0x561B0D22900E4669#64, 0x2B838811480723BA#64,
   0x9BCF4486248D9F5D#64, 0xC3E9224312C8C1A0#64, 0xEFFA11AF0964EE50#64, 0xF97D86D98A327728#64,
   0xE4FA2054A80B329C#64, 0x727D102A548B194E#64, 0x39B008152ACB8227#64, 0x9258048415EB419D#64,
   0x492C024284FBAEC0#64, 0xAA16012142F35760#64, 0x550B8E9E21F7A530#64, 0xA48B474F9EF5DC18#64,
   0x70A6A56E2440598E#64, 0x3853DC371220A247#64, 0x1CA76E95091051AD#64, 0x0EDD37C48A08A6D8#64,
   0x07E095624504536C#64, 0x8D70C431AC02A736#64, 0xC83862965601DD1B#64, 0x641C314B2B8EE083#64]

/-- `ROM_A[i]` (R112). -/
def romA (i : Nat) : Lane := romARows.getD i 0

/-- `ROM_C`, C1 to C12 (R114). -/
def romCRows : List Block :=
  [0xb1085bda1ecadae9ebcb2f81c0657c1f2f6a76432e45d016714eb88d7585c4fc4b7ce09192676901a2422a08a460d31505767436cc744d23dd806559f2a64507#512,
   0x6fa3b58aa99d2f1a4fe39d460f70b5d7f3feea720a232b9861d55e0f16b501319ab5176b12d699585cb561c2db0aa7ca55dda21bd7cbcd56e679047021b19bb7#512,
   0xf574dcac2bce2fc70a39fc286a3d843506f15e5f529c1f8bf2ea7514b1297b7bd3e20fe490359eb1c1c93a376062db09c2b6f443867adb31991e96f50aba0ab2#512,
   0xef1fdfb3e81566d2f948e1a05d71e4dd488e857e335c3c7d9d721cad685e353fa9d72c82ed03d675d8b71333935203be3453eaa193e837f1220cbebc84e3d12e#512,
   0x4bea6bacad4747999a3f410c6ca923637f151c1f1686104a359e35d7800fffbdbfcd1747253af5a3dfff00b723271a167a56a27ea9ea63f5601758fd7c6cfe57#512,
   0xae4faeae1d3ad3d96fa4c33b7a3039c02d66c4f95142a46c187f9ab49af08ec6cffaa6b71c9ab7b40af21f66c2bec6b6bf71c57236904f35fa68407a46647d6e#512,
   0xf4c70e16eeaac5ec51ac86febf240954399ec6c7e6bf87c9d3473e33197a93c90992abc52d822c3706476983284a05043517454ca23c4af38886564d3a14d493#512,
   0x9b1f5b424d93c9a703e7aa020c6e41414eb7f8719c36de1e89b4443b4ddbc49af4892bcb929b069069d18d2bd1a5c42f36acc2355951a8d9a47f0dd4bf02e71e#512,
   0x378f5a541631229b944c9ad8ec165fde3a7d3a1b258942243cd955b7e00d0984800a440bdbb2ceb17b2b8a9aa6079c540e38dc92cb1f2a607261445183235adb#512,
   0xabbedea680056f52382ae548b2e4f3f38941e71cff8a78db1fffe18a1b3361039fe76702af69334b7a1e6c303b7652f43698fad1153bb6c374b4c7fb98459ced#512,
   0x7bcd9ed0efc889fb3002c6cd635afe94d8fa6bbbebab076120018021148466798a1d71efea48b9caefbacd1d7d476e98dea2594ac06fd85d6bcaa4cd81f32d1b#512,
   0x378ee767f11631bad21380b00449b17acda43c32bcdf1d77f82012d430219f9b5d80ef9d1891cc86e71da4aa88e12852faf417d5d9b21b9948bc924af11bd720#512]

/-- `ROM_C[i]`, for i in 1 to 12 (R114). -/
def romC (i : Nat) : Block := romCRows.getD (i - 1) 0

/-- The XOR of the rows `A[i]` whose lane bit `p = 63 - i` is set, over the rows from A[64 - n] on:
`n` counts the rows still to visit, so the head row answers to bit `n - 1`. -/
def selectRows : List Lane → Nat → Lane → Lane
  | [], _, _ => 0
  | _ :: _, 0, _ => 0
  | a :: rows, n + 1, v => (if v.getLsbD n then a else 0) ^^^ selectRows rows n v

/-- The lane map `l` (R112): the XOR, over every p with bit p of `v` set, of `A[63 - p]`. -/
def laneMap (v : Lane) : Lane := selectRows romARows 64 v

/-- `LT[j][b]` (R113): the XOR, over every t with bit t of `b` set, of `A[8j + 7 - t]`. -/
def laneTable (j : Nat) (b : Byte) : Lane :=
  (List.range 8).foldl (fun acc t => if b.getLsbD t then acc ^^^ romA (8 * j + 7 - t) else acc) 0

end Sys2Proof.Machine
end

