-- ==== Sys2Proof/Machine/Transforms.lean ====
section
/-! DEFINITION. The functions of the compression engine on blocks: the block algebra (41_block_algebra.md
R130 to R135), E and G (42_compression.md R160 to R162) and the padding of one block (43_padding.md R180). -/

namespace Sys2Proof.Machine

/-- `xor(a, b)`: byte-wise XOR (R130). -/
def xorBlock (a b : Block) : Block := a ^^^ b

/-- `S(a)`: `S(a).byte(k) = ROM_S[a.byte(k)]` (R131). -/
def subst (a : Block) : Block := ofBytes fun k => romS (byte a k)

/-- `P(a)`: `P(a).byte(k) = a.byte(ROM_TAU[k])` (R132). -/
def permute (a : Block) : Block := ofBytes fun k => byte a (romTau k)

/-- `L(a)`: lane j is `l(lane(a, j))`, for the 8 lanes (R133). -/
def linear (a : Block) : Block := ofLanes fun j => laneMap (lane a j)

/-- `lps(a) = L(P(S(a)))` (R134). -/
def lps (a : Block) : Block := linear (permute (subst a))

/-- `add512(a, b) = blk(int(a) + int(b))` (R135). -/
def add512 (a b : Block) : Block := blk (a.toNat + b.toNat)

/-- The key and the value of E after `r` rounds, from the key `k` and the value `xor(k, m)` of
round 0 (R160). -/
def eRounds (k m : Block) : Nat → Block × Block
  | 0 => (k, xorBlock k m)
  | r + 1 =>
    let key := lps (xorBlock (eRounds k m r).1 (romC (r + 1)))
    (key, xorBlock (lps (eRounds k m r).2) key)

/-- `E(K, m)`: exactly 12 rounds (R160, R161). -/
def eTransform (k m : Block) : Block := (eRounds k m 12).2

/-- `G(h, m, N) = xor(xor(E(lps(xor(h, N)), m), h), m)` (R162). -/
def compress (h m n : Block) : Block :=
  xorBlock (xorBlock (eTransform (lps (xorBlock h n)) m) h) m

/-- `pad(m, n)`, for n up to 512: the low n bits of m below a set bit n (R180). -/
def padBlock (m : Block) (n : Nat) : Block :=
  if n = 512 then m else blk (m.toNat % 2 ^ n + 2 ^ n)

end Sys2Proof.Machine
end

