-- ==== Sys2Proof/Machine/Algebra.lean ====
section
/-! DEFINITION. The block algebra commands (41_block_algebra.md R137 to R145) and LDC
(40_transform_tables.md R116). None has a sequencing precondition and none changes HSTATE. -/

namespace Sys2Proof.Machine

/-- R137: `B[rd] <- B[ra]`. -/
def execMov (rd ra : Reg) (s : State) : Host.Outcome State Fault Refusal :=
  unary (fun a => a) rd ra s

/-- R138: `B[rd] <- 0^512`. -/
def execClr (rd : Reg) (s : State) : Host.Outcome State Fault Refusal :=
  writeResult rd 0 s

/-- R139: `B[rd] <- xor(B[ra], B[rb])`. -/
def execXor (rd ra rb : Reg) (s : State) : Host.Outcome State Fault Refusal :=
  binary xorBlock rd ra rb s

/-- R140: `B[rd] <- add512(B[ra], B[rb])`; the carry out of bit 511 is discarded. -/
def execAdd (rd ra rb : Reg) (s : State) : Host.Outcome State Fault Refusal :=
  binary add512 rd ra rb s

/-- R141: `B[rd] <- add512(B[ra], blk(imm))`; every imm is legal. -/
def execAddi (rd ra : Reg) (imm : BitVec 10) (s : State) : Host.Outcome State Fault Refusal :=
  unary (fun a => add512 a (immBlock imm)) rd ra s

/-- R142: `B[rd] <- S(B[ra])`. -/
def execSbox (rd ra : Reg) (s : State) : Host.Outcome State Fault Refusal :=
  unary subst rd ra s

/-- R143: `B[rd] <- P(B[ra])`. -/
def execPerm (rd ra : Reg) (s : State) : Host.Outcome State Fault Refusal :=
  unary permute rd ra s

/-- R144: `B[rd] <- L(B[ra])`. -/
def execLin (rd ra : Reg) (s : State) : Host.Outcome State Fault Refusal :=
  unary linear rd ra s

/-- R145: `B[rd] <- lps(B[ra])`. -/
def execLps (rd ra : Reg) (s : State) : Host.Outcome State Fault Refusal :=
  unary lps rd ra s

/-- R116: `B[rd] <- ROM_C[imm]`; IMM_RANGE when imm is not 1 to 12. -/
def execLdc (rd : Reg) (imm : BitVec 10) (s : State) : Host.Outcome State Fault Refusal :=
  if 1 ≤ immValue imm then
    requireImmAtMost 12 imm (.ldc rd imm) s (writeResult rd (romC (immValue imm)) s)
  else raise .immRange (.ldc rd imm) s

end Sys2Proof.Machine
end

