-- ==== Sys2Proof/Machine/Compression.lean ====
section
/-! DEFINITION. The E and G commands and PAD (42_compression.md R163 to R165; 43_padding.md R181). -/

namespace Sys2Proof.Machine

/-- R163: `B[rd] <- E(B[ra], B[rb])`. -/
def execE (rd ra rb : Reg) (s : State) : Host.Outcome State Fault Refusal :=
  binary eTransform rd ra rb s

/-- R164: `B[rd] <- G(B[rd], B[ra], B[rb])`; rd is the chaining value read and the destination. -/
def execG (rd ra rb : Reg) (s : State) : Host.Outcome State Fault Refusal :=
  binary (compress (s.reg rd)) rd ra rb s

/-- R181: `B[rd] <- pad(B[ra], imm)`; IMM_RANGE when imm is above 512. -/
def execPad (rd ra : Reg) (imm : BitVec 10) (s : State) : Host.Outcome State Fault Refusal :=
  requireImmAtMost 512 imm (.pad rd ra imm) s
    (unary (fun a => padBlock a (immValue imm)) rd ra s)

end Sys2Proof.Machine
end

