-- ==== Sys2Proof/Machine/Hash.lean ====
section
/-! DEFINITION. The hash engine (44_hash_engine.md): the functions Init, Block and Final of R191 to R193 on
the chain state, and the commands HINIT, HBLK, HFIN and HRESUME. -/

namespace Sys2Proof.Machine

/-- `Init(iv) = (iv, 0^512, 0^512)` (R191). -/
def chainInit (iv : Block) : Chain := ⟨iv, 0, 0⟩

/-- `Block((h, N, Σ), m) = (G(h, m, N), add512(N, blk(512)), add512(Σ, m))` (R192). -/
def chainBlock (c : Chain) (m : Block) : Chain :=
  ⟨compress c.h m c.n, add512 c.n (blk 512), add512 c.sigma m⟩

/-- `Final((h, N, Σ), m, n)`: the padded block under the old N, then N and Σ under a zero counter
(R193). -/
def chainFinal (c : Chain) (m : Block) (n : Nat) : Chain :=
  let p := padBlock m n
  let h1 := compress c.h p c.n
  let n1 := add512 c.n (blk n)
  let s1 := add512 c.sigma p
  let h2 := compress h1 n1 0
  let h3 := compress h2 s1 0
  ⟨h3, n1, s1⟩

/-- R194: `(B[H], B[N], B[SIGMA]) <- Init(B[IV])`, HSTATE <- ACCUM; legal in every HSTATE. -/
def execHinit (s : State) : Host.Outcome State Fault Refusal :=
  .next (finish ((s.setChain (chainInit (s.reg .iv))).setHState .accum))

/-- R195: `(B[H], B[N], B[SIGMA]) <- Block(…, B[M])`; SEQUENCE unless HSTATE = ACCUM. -/
def execHblk (s : State) : Host.Outcome State Fault Refusal :=
  requireHState .accum .hblk s (.next (finish (s.setChain (chainBlock s.chain (s.reg .m)))))

/-- R196: `(B[H], B[N], B[SIGMA]) <- Final(…, B[M], imm)`, HSTATE <- DONE; IMM_RANGE above 512, then
SEQUENCE unless HSTATE = ACCUM. -/
def execHfin (imm : BitVec 10) (s : State) : Host.Outcome State Fault Refusal :=
  requireImmAtMost 512 imm (.hfin imm) s
    (requireHState .accum (.hfin imm) s
      (.next (finish ((s.setChain (chainFinal s.chain (s.reg .m) (immValue imm))).setHState .done))))

/-- R197: HSTATE <- ACCUM, the chain state unchanged; legal in every HSTATE. -/
def execHresume (s : State) : Host.Outcome State Fault Refusal :=
  .next (finish (s.setHState .accum))

end Sys2Proof.Machine
end

