-- ==== Sys2Proof/Machine/Hmac.lean ====
section
/-! DEFINITION. The HMAC engine (45_hmac.md R210 to R217): KPAD, KHASH, HIPAD and HOUTER. -/

namespace Sys2Proof.Machine

/-- The inner-pad byte: 0x35 when CTRL.IPAD35 = 1, else 0x36 (R217). -/
def innerPadByte (s : State) : Byte := if s.ipad35 then 0x35 else 0x36

/-- The outer-pad byte 0x5C, fixed (R217). -/
def outerPadByte : Byte := 0x5C

/-- KEY normalised to `klen` bytes: ALIGN = 0 keeps bytes 0 to klen-1, ALIGN = 1 keeps bytes 64-klen
to 63, every other byte is 0 (R211). -/
def keyPad (align : Bool) (klen : Nat) (key : Block) : Block :=
  ofBytes fun k =>
    if (align = false ∧ klen ≤ k) ∨ (align = true ∧ k < 64 - klen) then 0 else byte key k

/-- The outer hash over the finished inner digest: the opad block, then `inner` as the last block
(BNDPAD = 0, the source's rule), or `inner` and the padding block blk(1) (BNDPAD = 1, the GOST rule)
(R214). -/
def outerHash (bndpad : Bool) (key inner : Block) : Chain :=
  let opad := xorBlock key (fill outerPadByte)
  let st := chainBlock (chainInit 0) opad
  if bndpad then chainFinal (chainBlock st inner) 0 0 else chainFinal st inner 512

/-- R211: KEY <- the key of `klen` bytes; KEY_LEN when klen is 0 or above 64. -/
def execKpad (align : Bool) (klen : BitVec 7) (s : State) : Host.Outcome State Fault Refusal :=
  if 1 ≤ klenValue klen ∧ klenValue klen ≤ 64 then
    unary (keyPad align (klenValue klen)) .key .key s
  else raise .keyLen (.kpad align klen) s

/-- R212: `B[KEY] <- B[H]`; SEQUENCE unless HSTATE = DONE. -/
def execKhash (s : State) : Host.Outcome State Fault Refusal :=
  requireHState .done .khash s (unary (fun a => a) .key .h s)

/-- R213: `B[M] <- xor(B[KEY], ib^64)`, the chain state <- Init(0^512), HSTATE <- ACCUM. -/
def execHipad (s : State) : Host.Outcome State Fault Refusal :=
  let ipad := xorBlock (s.reg .key) (fill (innerPadByte s))
  .next (finish (((s.setReg .m ipad).setChain (chainInit 0)).setHState .accum))

/-- R214, R216: the outer hash into H, N and SIGMA, KEY and M zeroed, HSTATE <- DONE; SEQUENCE unless
HSTATE = DONE. -/
def execHouter (s : State) : Host.Outcome State Fault Refusal :=
  requireHState .done .houter s
    (.next (finish
      ((((s.setChain (outerHash s.bndpad (s.reg .key) (s.reg .h))).setReg .key 0).setReg .m
        0).setHState .done)))

end Sys2Proof.Machine
end

