-- ==== Sys2Proof/Machine/System.lean ====
section
/-! DEFINITION. The system commands (46_system.md R230, R231). -/

namespace Sys2Proof.Machine

/-- R230: no block register, CTRL field or HSTATE changes; the command protocol sets DONE. -/
def execNop (s : State) : Host.Outcome State Fault Refusal := .next (finish s)

/-- R231: `for r = 0 to 7: B[r] <- 0^512`. -/
def zeroRegs (s : State) : State := { s with regs := ⟨0, 0, 0, 0, 0, 0, 0, 0⟩ }

/-- R231: every block register <- 0^512, the scratch <- 0, HSTATE <- IDLE; CTRL and the error record
stay. -/
def execWipe (s : State) : Host.Outcome State Fault Refusal :=
  .next (finishWith .zero ((zeroRegs s).setHState .idle))

end Sys2Proof.Machine
end

