-- ==== Sys2Proof/Machine/Dispatch.lean ====
section
/-! DEFINITION. exec: one command run to its end (60_exceptions.md R240, Execute and the STATUS update of
Complete), one arm per constructor of Instr, each a direct call of the command's meaning. -/

namespace Sys2Proof.Machine

def exec (i : Instr) (s : State) : Host.Outcome State Fault Refusal :=
  match i with
  | .nop => Sys2Proof.Machine.execNop s
  | .mov rd ra => Sys2Proof.Machine.execMov rd ra s
  | .clr rd => Sys2Proof.Machine.execClr rd s
  | .xor rd ra rb => Sys2Proof.Machine.execXor rd ra rb s
  | .add rd ra rb => Sys2Proof.Machine.execAdd rd ra rb s
  | .addi rd ra imm => Sys2Proof.Machine.execAddi rd ra imm s
  | .sbox rd ra => Sys2Proof.Machine.execSbox rd ra s
  | .perm rd ra => Sys2Proof.Machine.execPerm rd ra s
  | .lin rd ra => Sys2Proof.Machine.execLin rd ra s
  | .lps rd ra => Sys2Proof.Machine.execLps rd ra s
  | .ldc rd imm => Sys2Proof.Machine.execLdc rd imm s
  | .e rd ra rb => Sys2Proof.Machine.execE rd ra rb s
  | .g rd ra rb => Sys2Proof.Machine.execG rd ra rb s
  | .pad rd ra imm => Sys2Proof.Machine.execPad rd ra imm s
  | .hinit => Sys2Proof.Machine.execHinit s
  | .hblk => Sys2Proof.Machine.execHblk s
  | .hfin imm => Sys2Proof.Machine.execHfin imm s
  | .hresume => Sys2Proof.Machine.execHresume s
  | .kpad align klen => Sys2Proof.Machine.execKpad align klen s
  | .khash => Sys2Proof.Machine.execKhash s
  | .hipad => Sys2Proof.Machine.execHipad s
  | .houter => Sys2Proof.Machine.execHouter s
  | .wipe => Sys2Proof.Machine.execWipe s

end Sys2Proof.Machine
end

