-- ==== Sys2Proof/Machine/Sequencer.lean ====
section
/-! DEFINITION. The moves of the three agents (00_scope.md R15; 70_reset_and_hazards.md R270): the
sequencer's Complete, a host access, and the reset input; and which of them a step makes. -/

namespace Sys2Proof.Machine

/-- A command word run to its end: the decoded command's exec, or the rejection of a word that does
not decode (no such word is ever pending: 60_exceptions.md R240). -/
def runWord (v : Word) (s : State) : Host.Outcome State Fault Refusal :=
  match decode v with
  | .error code => .next (reject code v s)
  | .ok i => exec i s

/-- `Complete()`, the sequencer's step (60_exceptions.md R240); with no pending command it has none,
and nothing changes. -/
def complete (s : State) : Host.Outcome State Fault Refusal :=
  match s.pending with
  | some v => runWord v s
  | none => .next s

/-- Reset asserted: a pending command is abandoned (70_reset_and_hazards.md R270). -/
def assertReset (s : State) : State := { s with resetAsserted := true, pending := none }

/-- Reset released: every field of the engine takes its value of 10_state.md R51; the model's own
fields stay. -/
def releaseReset (s : State) : State :=
  { State.reset with
    schedule := s.schedule, readData := s.readData, draws := s.draws, engineId := s.engineId }

/-- A change of the reset input to the level `asserted`. -/
def setResetInput (asserted : Bool) (s : State) : State :=
  if asserted then assertReset s else if s.resetAsserted then releaseReset s else s

/-- One move. While reset is asserted only the reset input has one (93_implementation_defined.md
U14). -/
def makeMove (mv : Move) (s : State) : Host.Outcome State Fault Refusal :=
  match mv with
  | .reset asserted => .next (setResetInput asserted s)
  | .host a => if s.resetAsserted then .fault .resetAsserted else hostAccess a s
  | .sequencer => if s.resetAsserted then .fault .resetAsserted else complete s

/-- The next move of the schedule; with none left the sequencer moves, since a pending command does
complete (00_scope.md R15; log entry 1). -/
def advance (s : State) : Host.Outcome State Fault Refusal :=
  match s.schedule with
  | mv :: rest => makeMove mv { s with schedule := rest }
  | [] => makeMove .sequencer s

/-- `s` with the word `v` accepted and the sequencer's completion of it as the next move. -/
def placeCommand (v : Word) (s : State) : State :=
  { accept v s with resetAsserted := false, schedule := .sequencer :: s.schedule }

end Sys2Proof.Machine
end

