-- ==== Sys2Proof/Machine/Step.lean ====
section
/-! DEFINITION. One step of the machine: the next move of its agents (00_scope.md R15). -/

namespace Sys2Proof.Machine

/-- One step (Sys2Proof.Machine.advance). -/
def step (s : State) : Host.Outcome State Fault Refusal := advance s

/-- `s` with the command of bits `w` where the next step takes it: accepted, and its completion the
next move (log entry 8). A command is one 32-bit word (30_encoding.md R96). -/
def State.withFetchWord (s : State) (_nbits w : Nat) : State := placeCommand (BitVec.ofNat 32 w) s

end Sys2Proof.Machine
end

