-- ==== Sys2Proof/Machine/Asm.lean ====
section
/-! DEFINITION. The assembler text of a command and the pseudo-instructions (30_encoding.md R98, R99), and
the moves a line of a host's listing stands for. -/

namespace Sys2Proof.Machine

/-- The assembler name of a register (R98; 10_state.md R30). -/
def regName (r : Reg) : String :=
  match r with
  | .h => "h"
  | .n => "n"
  | .sigma => "sigma"
  | .m => "m"
  | .iv => "iv"
  | .key => "key"
  | .t0 => "t0"
  | .t1 => "t1"

/-- The register a name denotes, `r0` to `r7` or its architectural name (R98). -/
def regOfName (t : String) : Option Reg :=
  if t = "h" ∨ t = "r0" then some .h
  else if t = "n" ∨ t = "r1" then some .n
  else if t = "sigma" ∨ t = "r2" then some .sigma
  else if t = "m" ∨ t = "r3" then some .m
  else if t = "iv" ∨ t = "r4" then some .iv
  else if t = "key" ∨ t = "r5" then some .key
  else if t = "t0" ∨ t = "r6" then some .t0
  else if t = "t1" ∨ t = "r7" then some .t1
  else none

/-- `MNEMONIC rd`. -/
def text1 (name : String) (rd : Reg) : String := name ++ " " ++ regName rd

/-- `MNEMONIC rd, ra`. -/
def text2 (name : String) (rd ra : Reg) : String := text1 name rd ++ ", " ++ regName ra

/-- `MNEMONIC rd, ra, rb`. -/
def text3 (name : String) (rd ra rb : Reg) : String := text2 name rd ra ++ ", " ++ regName rb

/-- The assembler text of a command, its immediates decimal (R98). -/
def asmText (i : Instr) : String :=
  match i with
  | .nop => "NOP"
  | .mov rd ra => text2 "MOV" rd ra
  | .clr rd => text1 "CLR" rd
  | .xor rd ra rb => text3 "XOR" rd ra rb
  | .add rd ra rb => text3 "ADD" rd ra rb
  | .addi rd ra imm => text2 "ADDI" rd ra ++ ", " ++ toString imm.toNat
  | .sbox rd ra => text2 "SBOX" rd ra
  | .perm rd ra => text2 "PERM" rd ra
  | .lin rd ra => text2 "LIN" rd ra
  | .lps rd ra => text2 "LPS" rd ra
  | .ldc rd imm => text1 "LDC" rd ++ ", " ++ toString imm.toNat
  | .e rd ra rb => text3 "E" rd ra rb
  | .g rd ra rb => text3 "G" rd ra rb
  | .pad rd ra imm => text2 "PAD" rd ra ++ ", " ++ toString imm.toNat
  | .hinit => "HINIT"
  | .hblk => "HBLK"
  | .hfin imm => "HFIN " ++ toString imm.toNat
  | .hresume => "HRESUME"
  | .kpad align klen => "KPAD " ++ toString klen.toNat ++ if align then ", right" else ""
  | .khash => "KHASH"
  | .hipad => "HIPAD"
  | .houter => "HOUTER"
  | .wipe => "WIPE"

/-- A line of a host's listing (R98). -/
inductive Line where
  /-- a command mnemonic alone: `WR 0x008, cmd` -/
  | cmd (i : Instr)
  /-- `WR off, value` -/
  | wr (off : Offset) (v : Word)
  /-- `RD off` -/
  | rd (off : Offset)
  /-- `POLL`: RD 0x00C repeated until bit 0 reads 0 -/
  | poll
  deriving DecidableEq, Repr

/-- The 32-bit read of an offset. -/
def readMove (off : Offset) : Move := .host ⟨.read, off, 32⟩

/-- The 32-bit write of an offset. -/
def writeMove (off : Offset) (v : Word) : Move := .host ⟨.write v, off, 32⟩

/-- The moves of a line. A POLL after an accepted command reads STATUS `waits` times before the
sequencer completes the command and once more after (R98; any `waits` may happen, 70_reset_and_hazards.md
R280). -/
def lineMoves (waits : Nat) (l : Line) : List Move :=
  match l with
  | .cmd i => [writeMove 0x008 (encode i)]
  | .wr off v => [writeMove off v]
  | .rd off => [readMove off]
  | .poll => List.replicate waits (readMove 0x00C) ++ [.sequencer, readMove 0x00C]

/-- The pseudo-instructions of R99. -/
inductive Pseudo where
  | nadd512
  | hash1 (len : BitVec 10)
  | lpsx (rd ra rb : Reg)
  | hmacBegin (klen : BitVec 7)
  | hmacBeginR (klen : BitVec 7)
  deriving DecidableEq, Repr

/-- Their expansions (R99). -/
def expand (p : Pseudo) : List Line :=
  match p with
  | .nadd512 => [.cmd (.addi .n .n 512)]
  | .hash1 len => [.cmd .hinit, .poll, .cmd (.hfin len), .poll]
  | .lpsx rd ra rb => [.cmd (.xor rd ra rb), .poll, .cmd (.lps rd rd)]
  | .hmacBegin klen => [.cmd (.kpad false klen), .poll, .cmd .hipad]
  | .hmacBeginR klen => [.cmd (.kpad true klen), .poll, .cmd .hipad]

end Sys2Proof.Machine
end

