-- ==== Sys2Proof/Machine/Platform.lean ====
section
/-! DEFINITION. Several engines on one platform (60_exceptions.md R255): each in its own window with its own
state, the accesses reaching them by physical address (20_memory.md R76, R77), their moves in the order
the platform's schedule gives (log entry 11). -/

namespace Sys2Proof.Machine

/-- One engine of a platform: the 4 KiB page its window lies at (00_scope.md R7) and its state. -/
structure Engine where
  page : Nat
  state : State
  deriving DecidableEq, Repr

/-- One move on a platform: a host access at a physical address, the sequencer's move of the engine at
position `k`, or a change of that engine's reset input. -/
inductive PlatformMove where
  | bus (kind : AccessKind) (addr width : Nat)
  | sequencer (k : Nat)
  | reset (k : Nat) (asserted : Bool)
  deriving DecidableEq, Repr

/-- The engines of a platform and the moves still to come, the next one first. The schedules inside the
engines' states are not used here. -/
structure Platform where
  engines : List Engine
  schedule : List PlatformMove
  deriving DecidableEq, Repr

/-- An engine right after reset, as number `k`, with its window at `page`. -/
def Engine.reset (k page : Nat) : Engine := ⟨page, { State.reset with engineId := k }⟩

/-- Engines right after reset with their windows at `pages`, numbered from `k` on. -/
def resetEngines (k : Nat) (pages : List Nat) : List Engine :=
  match pages with
  | [] => []
  | page :: rest => Engine.reset k page :: resetEngines (k + 1) rest

/-- A platform right after reset, one engine per page of `pages`. -/
def Platform.reset (pages : List Nat) : Platform := ⟨resetEngines 0 pages, []⟩

/-- The move `mv` of the engine at position `k`, exactly its move alone: the other engines are not
touched. With no engine there nothing happens. -/
def moveEngine (k : Nat) (mv : Move) (p : Platform) : Host.Outcome Platform Fault Refusal :=
  match p.engines[k]? with
  | none => .next p
  | some e =>
    match makeMove mv e.state with
    | .next t => .next { p with engines := p.engines.set k { e with state := t } }
    | .fault f => .fault f
    | .refused r => .refused r

/-- The first engine, counting positions from `k`, whose window holds the address, and the move the access
is to it. -/
def routeFrom (kind : AccessKind) (addr width : Nat) (k : Nat) (engines : List Engine) :
    Option (Nat × Move) :=
  match engines with
  | [] => none
  | e :: rest =>
    match moveAtAddress e.page kind addr width with
    | some mv => some (k, mv)
    | none => routeFrom kind addr width (k + 1) rest

/-- A host access at a physical address: a move of the engine whose window holds it; an access that reaches
no window is no access to an engine (20_memory.md R76). -/
def busMove (kind : AccessKind) (addr width : Nat) (p : Platform) :
    Host.Outcome Platform Fault Refusal :=
  match routeFrom kind addr width 0 p.engines with
  | some (k, mv) => moveEngine k mv p
  | none => .next p

/-- One move on a platform. -/
def platformMove (mv : PlatformMove) (p : Platform) : Host.Outcome Platform Fault Refusal :=
  match mv with
  | .bus kind addr width => busMove kind addr width p
  | .sequencer k => moveEngine k .sequencer p
  | .reset k asserted => moveEngine k (.reset asserted) p

/-- The first position from `k` on of an engine with a pending command. -/
def firstBusyFrom (k : Nat) (engines : List Engine) : Option Nat :=
  match engines with
  | [] => none
  | e :: rest => if e.state.busy then some k else firstBusyFrom (k + 1) rest

/-- One step of a platform: the next move of its schedule; with none left an engine with a pending command
completes it, the first one (00_scope.md R15; log entry 11). -/
def platformStep (p : Platform) : Host.Outcome Platform Fault Refusal :=
  match p.schedule with
  | mv :: rest => platformMove mv { p with schedule := rest }
  | [] =>
    match firstBusyFrom 0 p.engines with
    | some k => moveEngine k .sequencer p
    | none => .next p

end Sys2Proof.Machine
end

