-- ==== Sys2Proof/Machine/Timing.lean ====
section
/-! DEFINITION. What the spec says of the cost of a command (70_reset_and_hazards.md R279): the
compressions it performs, each with its three inputs, and its E transforms. No cycle count is
modelled (R280; log entry 5). -/

namespace Sys2Proof.Machine

/-- One compression: the inputs of a call of G. -/
structure GCall where
  h : Block
  m : Block
  n : Block
  deriving DecidableEq, Repr

/-- What the call gives. -/
def callResult (c : GCall) : Block := compress c.h c.m c.n

/-- The one compression of Block (44_hash_engine.md R192). -/
def blockCalls (c : Chain) (m : Block) : List GCall := [⟨c.h, m, c.n⟩]

/-- The three compressions of Final, in order (44_hash_engine.md R193). -/
def finalCalls (c : Chain) (m : Block) (n : Nat) : List GCall :=
  let p := padBlock m n
  let h1 := compress c.h p c.n
  let n1 := add512 c.n (blk n)
  [⟨c.h, p, c.n⟩, ⟨h1, n1, 0⟩, ⟨compress h1 n1 0, add512 c.sigma p, 0⟩]

/-- The compressions of HOUTER, in order (45_hmac.md R214). -/
def outerCalls (bndpad : Bool) (key inner : Block) : List GCall :=
  let opad := xorBlock key (fill outerPadByte)
  let st := chainBlock (chainInit 0) opad
  blockCalls (chainInit 0) opad ++
    if bndpad then blockCalls st inner ++ finalCalls (chainBlock st inner) 0 0
    else finalCalls st inner 512

/-- The compressions an accepted command performs in state `s`, in order (R279). -/
def gCalls (i : Instr) (s : State) : List GCall :=
  match i with
  | .g rd ra rb => [⟨s.reg rd, s.reg ra, s.reg rb⟩]
  | .hblk => blockCalls s.chain (s.reg .m)
  | .hfin imm => finalCalls s.chain (s.reg .m) (immValue imm)
  | .houter => outerCalls s.bndpad (s.reg .key) (s.reg .h)
  | .nop => []
  | .mov _ _ => []
  | .clr _ => []
  | .xor _ _ _ => []
  | .add _ _ _ => []
  | .addi _ _ _ => []
  | .sbox _ _ => []
  | .perm _ _ => []
  | .lin _ _ => []
  | .lps _ _ => []
  | .ldc _ _ => []
  | .e _ _ _ => []
  | .pad _ _ _ => []
  | .hinit => []
  | .hresume => []
  | .kpad _ _ => []
  | .khash => []
  | .hipad => []
  | .wipe => []

/-- The E transforms of a command: one per compression, and the one of E itself (R279). -/
def eTransforms (i : Instr) (s : State) : Nat :=
  match i with
  | .e _ _ _ => 1
  | .nop => 0
  | .mov _ _ => 0
  | .clr _ => 0
  | .xor _ _ _ => 0
  | .add _ _ _ => 0
  | .addi _ _ _ => 0
  | .sbox _ _ => 0
  | .perm _ _ => 0
  | .lin _ _ => 0
  | .lps _ _ => 0
  | .ldc _ _ => 0
  | .g _ _ _ => 1
  | .pad _ _ _ => 0
  | .hinit => 0
  | .hblk => 1
  | .hfin _ => 3
  | .hresume => 0
  | .kpad _ _ => 0
  | .khash => 0
  | .hipad => 0
  | .houter => if s.bndpad then 5 else 4
  | .wipe => 0

end Sys2Proof.Machine
end

