-- ==== Sys2Proof/Safety.lean ====
section
/-! DEFINITION. The terms the claims about the engine use: what a completed and a rejected command leave
unchanged, the invariant of the engine, and tables of the spec restated without the model's own
functions (44_hash_engine.md R190; 60_exceptions.md R248; 70_reset_and_hazards.md R279). -/

namespace Sys2Proof.Machine

/-- The frame of a command completed from `s` to `t`: the block registers outside `rs`, CTRL, the error
record and everything outside the engine are unchanged, HSTATE is `hs`, BUSY is 0 and DONE is 1. It says
nothing of the scratch, unspecified after a command (10_state.md R50), nor of the draw counter. -/
structure CompletedFrame (rs : List Reg) (hs : HState) (s t : State) : Prop where
  regs : ∀ r, r ∉ rs → t.reg r = s.reg r
  ctrl : t.ctrl = s.ctrl
  err : t.err = s.err
  errcode : t.errcode = s.errcode
  errcmd : t.errcmd = s.errcmd
  hstate : t.hstate = hs
  pending : t.pending = none
  done : t.done = true
  resetAsserted : t.resetAsserted = s.resetAsserted
  schedule : t.schedule = s.schedule
  readData : t.readData = s.readData
  engineId : t.engineId = s.engineId

/-- A command word `v` rejected with `code`, from `s` to `t` (60_exceptions.md R242, R244): DONE is 1, BUSY
is 0, the error is recorded if ERR was 0, and nothing else changes. -/
structure RejectedWith (code : ErrCode) (v : Word) (s t : State) : Prop where
  done : t.done = true
  pending : t.pending = none
  record : if s.err = true
    then t.err = true ∧ t.errcode = s.errcode ∧ t.errcmd = s.errcmd
    else t.err = true ∧ t.errcode = code ∧ t.errcmd = v
  regs : t.regs = s.regs
  ctrl : t.ctrl = s.ctrl
  hstate : t.hstate = s.hstate
  scratch : t.scratch = s.scratch
  resetAsserted : t.resetAsserted = s.resetAsserted
  schedule : t.schedule = s.schedule
  readData : t.readData = s.readData
  engineId : t.engineId = s.engineId
  draws : t.draws = s.draws

/-- The block registers a command may write (the Operands lines of every command's rule). -/
def writtenRegs (i : Instr) : List Reg :=
  match i with
  | .nop => []
  | .mov rd _ => [rd]
  | .clr rd => [rd]
  | .xor rd _ _ => [rd]
  | .add rd _ _ => [rd]
  | .addi rd _ _ => [rd]
  | .sbox rd _ => [rd]
  | .perm rd _ => [rd]
  | .lin rd _ => [rd]
  | .lps rd _ => [rd]
  | .ldc rd _ => [rd]
  | .e rd _ _ => [rd]
  | .g rd _ _ => [rd]
  | .pad rd _ _ => [rd]
  | .hinit => [.h, .n, .sigma]
  | .hblk => [.h, .n, .sigma]
  | .hfin _ => [.h, .n, .sigma]
  | .hresume => []
  | .kpad _ _ => [.key]
  | .khash => [.key]
  | .hipad => [.m, .h, .n, .sigma]
  | .houter => [.h, .n, .sigma, .key, .m]
  | .wipe => [.h, .n, .sigma, .m, .iv, .key, .t0, .t1]

/-- The table of R190, second column: the HSTATE a command requires, if any. -/
def requiredHState (i : Instr) : Option HState :=
  match i with
  | .hblk => some .accum
  | .hfin _ => some .accum
  | .khash => some .done
  | .houter => some .done
  | .nop => none
  | .mov _ _ => none
  | .clr _ => none
  | .xor _ _ _ => none
  | .add _ _ _ => none
  | .addi _ _ _ => none
  | .sbox _ _ => none
  | .perm _ _ => none
  | .lin _ _ => none
  | .lps _ _ => none
  | .ldc _ _ => none
  | .e _ _ _ => none
  | .g _ _ _ => none
  | .pad _ _ _ => none
  | .hinit => none
  | .hresume => none
  | .kpad _ _ => none
  | .hipad => none
  | .wipe => none

/-- The table of R190, third column: the HSTATE after a command, from the HSTATE `x` before it. -/
def hstateAfter (i : Instr) (x : HState) : HState :=
  match i with
  | .hinit => .accum
  | .hblk => .accum
  | .hfin _ => .done
  | .hresume => .accum
  | .hipad => .accum
  | .houter => .done
  | .khash => .done
  | .wipe => .idle
  | .nop => x
  | .mov _ _ => x
  | .clr _ => x
  | .xor _ _ _ => x
  | .add _ _ _ => x
  | .addi _ _ _ => x
  | .sbox _ _ => x
  | .perm _ _ => x
  | .lin _ _ => x
  | .lps _ _ => x
  | .ldc _ _ => x
  | .e _ _ _ => x
  | .g _ _ _ => x
  | .pad _ _ _ => x
  | .kpad _ _ => x

/-- The required HSTATE holds. -/
def sequenceHolds (i : Instr) (x : HState) : Prop := ∀ y, requiredHState i = some y → x = y

/-- The match and mask columns of spec/opcode_table.json: each opcode with the mask of the bits that must
equal the opcode alone. -/
def opcodeMasks : List (Nat × Word) :=
  [(0x00, 0xFFFFFFFF), (0x01, 0xFFFFC0FF), (0x02, 0xFFFFF8FF), (0x03, 0xFFFE00FF),
   (0x04, 0xFFFE00FF), (0x05, 0xF801C0FF), (0x06, 0xFFFFC0FF), (0x07, 0xFFFFC0FF),
   (0x08, 0xFFFFC0FF), (0x09, 0xFFFFC0FF), (0x0A, 0xF801F8FF), (0x10, 0xFFFE00FF)] ++
  [(0x11, 0xFFFE00FF), (0x18, 0xF801C0FF), (0x20, 0xFFFFFFFF), (0x21, 0xFFFFFFFF),
   (0x22, 0xF801FFFF), (0x23, 0xFFFFFFFF), (0x30, 0xFE01FFFF), (0x31, 0xFFFFFFFF),
   (0x32, 0xFFFFFFFF), (0x33, 0xFFFFFFFF), (0x3F, 0xFFFFFFFF)]

/-- The order of tests of R248 on the word as a number, over the table's masks: op is v[7:0], imm is
v[26:17], klen is v[23:17]. -/
def checkOrder (v : Word) (x : HState) : ErrCode :=
  let op := v.toNat % 256
  let imm := v.toNat / 2 ^ 17 % 1024
  match opcodeMasks.lookup op with
  | none => .illegalOp
  | some mask =>
    if v &&& mask ≠ BitVec.ofNat 32 op then .reservedField
    else if op = 0x0A ∧ ¬(1 ≤ imm ∧ imm ≤ 12) then .immRange
    else if (op = 0x18 ∨ op = 0x22) ∧ 512 < imm then .immRange
    else if op = 0x30 ∧ ¬(1 ≤ imm % 128 ∧ imm % 128 ≤ 64) then .keyLen
    else if (op = 0x21 ∨ op = 0x22) ∧ x ≠ .accum then .sequence
    else if (op = 0x31 ∨ op = 0x33) ∧ x ≠ .done then .sequence
    else .none

/-- The reserved opcodes of R95, as its ranges. -/
def reservedOpcode (op : Nat) : Prop :=
  (0x0B ≤ op ∧ op ≤ 0x0F) ∨ (0x12 ≤ op ∧ op ≤ 0x17) ∨ (0x19 ≤ op ∧ op ≤ 0x1F) ∨
  (0x24 ≤ op ∧ op ≤ 0x2F) ∨ (0x34 ≤ op ∧ op ≤ 0x3E) ∨ (0x40 ≤ op ∧ op ≤ 0xFF)

/-- What the error record holds for each code (60_exceptions.md R241; 10_state.md R40): for codes 1 to 4 and
6 a word that has that fault, for code 7 the offset of CTRL or of a block register word. -/
def recordSound (code : ErrCode) (val : Word) : Prop :=
  match code with
  | .none => val = 0
  | .illegalOp => decode val = .error .illegalOp
  | .reservedField => decode val = .error .reservedField
  | .immRange => ∃ i, decode val = .ok i ∧ rangeFault i = .immRange
  | .keyLen => ∃ i, decode val = .ok i ∧ rangeFault i = .keyLen
  | .sequence => ∃ i, decode val = .ok i ∧ i.WellFormed ∧ requiredHState i ≠ none
  | .cmdBusy => True
  | .writeBusy =>
    val.toNat % 4 = 0 ∧ (val.toNat = 0x004 ∨ (0x100 ≤ val.toNat ∧ val.toNat < 0x300))

/-- The invariant of the engine: the error record is empty exactly while ERR = 0 and always holds what R40
says; DONE = 1 implies BUSY = 0 (70_reset_and_hazards.md R273); a pending word is a well-formed command
whose required HSTATE holds (60_exceptions.md R240, R249); no command is pending while reset is
asserted (R270). -/
structure EngineInv (s : State) : Prop where
  recordEmpty : s.errcode = .none ↔ s.err = false
  record : recordSound s.errcode s.errcmd
  doneNotBusy : s.done = true → s.busy = false
  pendingChecked : ∀ v, s.pending = some v →
    ∃ i, decode v = .ok i ∧ i.WellFormed ∧ sequenceHolds i s.hstate
  resetIdle : s.resetAsserted = true → s.pending = none

/-- The engines of a platform lie in windows of their own, and each has its own number, so that no two share
a free value (60_exceptions.md R255). -/
structure Platform.WellPlaced (p : Platform) : Prop where
  ownWindow : ∀ (j k : Nat) (e f : Engine), p.engines[j]? = some e → p.engines[k]? = some f →
    j ≠ k → e.page ≠ f.page
  ownNumber : ∀ (k : Nat) (e : Engine), p.engines[k]? = some e → e.state.engineId = k

/-- The position of the engine a platform move is for, where it is for one; an access is for the engine
whose window holds its address. -/
def movesEngine (p : Platform) (k : Nat) (mv : PlatformMove) : Prop :=
  match mv with
  | .bus _ addr _ => ∃ e, p.engines[k]? = some e ∧ Config.base e.page ≤ addr ∧
      addr < Config.base e.page + 0x1000
  | .sequencer j => j = k
  | .reset j _ => j = k

/-- The carry into byte `k` of a byte-serial addition of `a` and `b` that starts at byte 63: the carry out
of the `63 - k` bytes after it; `n` counts those bytes (41_block_algebra.md R135). -/
def carryAfter (a b : Block) : Nat → Nat
  | 0 => 0
  | n + 1 => ((byte a (63 - n)).toNat + (byte b (63 - n)).toNat + carryAfter a b n) / 256

/-- The compression count of R279's table. -/
def compressionCount (i : Instr) (bndpad : Bool) : Nat :=
  match i with
  | .g _ _ _ => 1
  | .hblk => 1
  | .hfin _ => 3
  | .houter => if bndpad then 5 else 4
  | .nop => 0
  | .mov _ _ => 0
  | .clr _ => 0
  | .xor _ _ _ => 0
  | .add _ _ _ => 0
  | .addi _ _ _ => 0
  | .sbox _ _ => 0
  | .perm _ _ => 0
  | .lin _ _ => 0
  | .lps _ _ => 0
  | .ldc _ _ => 0
  | .e _ _ _ => 0
  | .pad _ _ _ => 0
  | .hinit => 0
  | .hresume => 0
  | .kpad _ _ => 0
  | .khash => 0
  | .hipad => 0
  | .wipe => 0

/-- The compressions follow one another: each takes the chaining value the one before it gave. -/
def callsLinked : List GCall → Prop
  | a :: b :: rest => b.h = callResult a ∧ callsLinked (b :: rest)
  | _ => True

/-- The window offsets whose words show what a command wrote: the words of the written registers, DIGEST
where H is written, and STATUS (10_state.md section 3). -/
def showsResultOf (i : Instr) (off : Offset) : Prop :=
  off = 0x00C ∨ (inBlocks off = true ∧ regAt off ∈ writtenRegs i) ∨
    (inDigest off = true ∧ Reg.h ∈ writtenRegs i)

end Sys2Proof.Machine
end

