-- ==== Sys2Proof/Certificates/Slice0/Obligations.lean ====
section
/-! DEFINITION. The statements about the engine, each from the rules of spec/ its docstring names. -/

open Sys2Proof Sys2Proof.Machine

/-! ### The command word -/

/-- Ten words of the table of 95_test_vectors.md section 3.1 decode to the command printed beside them. -/
def Obligations.KnownWordsDecode : Prop :=
  decode 0x00004603 = .ok (.xor .t0 .h .n) ∧ decode 0x04000905 = .ok (.addi .n .n 512) ∧
  decode 0x0002060A = .ok (.ldc .t0 1) ∧ decode 0x0001F710 = .ok (.e .t1 .t0 .t1) ∧
  decode 0x00005811 = .ok (.g .h .m .n) ∧ decode 0x03F01E18 = .ok (.pad .t0 .m 504) ∧
  decode 0x03F00022 = .ok (.hfin 504) ∧ decode 0x01400030 = .ok (.kpad true 32) ∧
  decode 0x00000033 = .ok .houter ∧ decode 0x0000003F = .ok .wipe

/-- Decoding an encoded command gives it back, for every command with every operand its fields admit
(R90 to R92, R94). -/
def Obligations.DecodeOfEncodeIsIdentity : Prop := ∀ i : Instr, decode (encode i) = .ok i

/-- Every word that decodes is the one word of its command: no bit of it is ignored (R90, R92). -/
def Obligations.EncodeOfDecodeIsIdentity : Prop :=
  ∀ (w : Word) (i : Instr), decode w = .ok i → encode i = w

/-- A word is ILLEGAL_OP exactly when its OP lies in the reserved ranges of R95, whatever its other bits
are. -/
def Obligations.ReservedOpcodesAreIllegal : Prop :=
  ∀ w : Word, decode w = .error .illegalOp ↔ reservedOpcode (w.toNat % 256)

/-- R248: Check is the printed order of tests over the masks of spec/opcode_table.json; the three examples
of the rule; and while BUSY = 1 the word is not checked, CMD_BUSY comes first. -/
def Obligations.CheckFollowsThePriorityOrder : Prop :=
  (∀ (v : Word) (x : HState), check v x = checkOrder v x) ∧
  check 0x04020022 .idle = .immRange ∧
  (∀ x, check 0x0801F604 x = .reservedField) ∧
  (∀ (v : Word) (x : HState), v.toNat % 256 = 0x0B → check v x = .illegalOp) ∧
  (∀ (v : Word) (s : State), s.busy = true →
    (present v s).pending = s.pending ∧ (present v s).done = s.done ∧
    (s.err = false → (present v s).errcode = .cmdBusy ∧ (present v s).errcmd = v))

/-- R240, Present: a 32-bit host write of `v` to CMD. While BUSY = 1 only the record changes; else a word
that Check faults is rejected with that code; else it becomes the pending command, DONE is 0, and nothing
else changes. -/
def Obligations.CmdWritePresentsTheCommand : Prop :=
  ∀ (v : Word) (s : State), ∃ t, hostAccess ⟨.write v, 0x008, 32⟩ s = .next t ∧
    (s.busy = true → t = recordError .cmdBusy v s) ∧
    (s.busy = false → checkOrder v s.hstate = .none →
      t = { s with done := false, pending := some v }) ∧
    (s.busy = false → checkOrder v s.hstate ≠ .none →
      RejectedWith (checkOrder v s.hstate) v s t)

/-- A step runs the decoded command: with reset released and the sequencer's move next (or no move
scheduled), a pending word that decodes to `i` makes the step exec of `i`, on the state past that move; a
scheduled host access makes the step that access; and with no move and no pending command a step changes
nothing (R15, R240; log entry 1). -/
def Obligations.StepRunsTheDecodedCommand : Prop :=
  ∀ (s : State), s.resetAsserted = false →
    (∀ v i rest, s.pending = some v → decode v = .ok i → s.schedule = .sequencer :: rest →
      step s = exec i { s with schedule := rest }) ∧
    (∀ v i, s.pending = some v → decode v = .ok i → s.schedule = [] → step s = exec i s) ∧
    (∀ a rest, s.schedule = .host a :: rest → step s = hostAccess a { s with schedule := rest }) ∧
    (s.pending = none → s.schedule = [] → step s = .next s)

/-! ### Block algebra -/

/-- NOP changes no block register, MOV copies, CLR zeroes (R230, R137, R138), each with its frame. -/
def Obligations.NopMovClrComplete : Prop :=
  ∀ (s : State) (rd ra : Reg),
    (∃ t, exec .nop s = .next t ∧ CompletedFrame [] s.hstate s t) ∧
    (∃ t, exec (.mov rd ra) s = .next t ∧ t.reg rd = s.reg ra ∧
      CompletedFrame [rd] s.hstate s t) ∧
    (∃ t, exec (.clr rd) s = .next t ∧ t.reg rd = 0 ∧ CompletedFrame [rd] s.hstate s t)

/-- XOR is byte-wise (R130), for every choice of registers, the same one more than once included. -/
def Obligations.XorIsBytewise : Prop :=
  ∀ (s : State) (rd ra rb : Reg), ∃ t, exec (.xor rd ra rb) s = .next t ∧
    (∀ k, k < 64 → byte (t.reg rd) k = byte (s.reg ra) k ^^^ byte (s.reg rb) k) ∧
    CompletedFrame [rd] s.hstate s t

/-- ADD is addition modulo 2^512 (R135), and its bytes are those of the rule's byte-serial addition: the
carry runs from byte 63 to byte 0, and the last one is discarded. -/
def Obligations.AddWrapsAndCarriesByBytes : Prop :=
  ∀ (s : State) (rd ra rb : Reg), ∃ t, exec (.add rd ra rb) s = .next t ∧
    (t.reg rd).toNat = ((s.reg ra).toNat + (s.reg rb).toNat) % 2 ^ 512 ∧
    (∀ k, k < 64 → (byte (t.reg rd) k).toNat =
      ((byte (s.reg ra) k).toNat + (byte (s.reg rb) k).toNat +
        carryAfter (s.reg ra) (s.reg rb) (63 - k)) % 256) ∧
    CompletedFrame [rd] s.hstate s t

/-- ADDI adds the unsigned immediate modulo 2^512; every immediate is legal (R141). -/
def Obligations.AddiAddsTheImmediate : Prop :=
  ∀ (s : State) (rd ra : Reg) (imm : BitVec 10), ∃ t, exec (.addi rd ra imm) s = .next t ∧
    (t.reg rd).toNat = ((s.reg ra).toNat + imm.toNat) % 2 ^ 512 ∧
    CompletedFrame [rd] s.hstate s t

/-- SBOX substitutes every byte by ROM_S (R131). -/
def Obligations.SboxSubstitutesEveryByte : Prop :=
  ∀ (s : State) (rd ra : Reg), ∃ t, exec (.sbox rd ra) s = .next t ∧
    (∀ k, k < 64 → byte (t.reg rd) k = romS (byte (s.reg ra) k)) ∧
    CompletedFrame [rd] s.hstate s t

/-- PERM moves byte ROM_TAU[k] to byte k, and equally byte k to byte ROM_TAU[k] (R132). -/
def Obligations.PermMovesEveryByte : Prop :=
  ∀ (s : State) (rd ra : Reg), ∃ t, exec (.perm rd ra) s = .next t ∧
    (∀ k, k < 64 → byte (t.reg rd) k = byte (s.reg ra) (romTau k)) ∧
    (∀ k, k < 64 → byte (t.reg rd) (romTau k) = byte (s.reg ra) k) ∧
    CompletedFrame [rd] s.hstate s t

/-- LIN maps each of the 8 lanes by `l` (R133), `l` being the XOR of the rows A[63 - p] over the set bits p
of the lane (R112). -/
def Obligations.LinMapsEveryLane : Prop :=
  ∀ (s : State) (rd ra : Reg), ∃ t, exec (.lin rd ra) s = .next t ∧
    (∀ j, j < 8 → lane (t.reg rd) j =
      (List.range 64).foldl (fun acc p =>
        if (lane (s.reg ra) j).getLsbD p then acc ^^^ romA (63 - p) else acc) 0) ∧
    CompletedFrame [rd] s.hstate s t

/-- LPS leaves what SBOX, then PERM, then LIN leave, in this order (R134). -/
def Obligations.LpsIsSboxThenPermThenLin : Prop :=
  ∀ (s : State) (rd ra : Reg), ∃ t t1 t2 t3, exec (.lps rd ra) s = .next t ∧
    exec (.sbox rd ra) s = .next t1 ∧ exec (.perm rd rd) t1 = .next t2 ∧
    exec (.lin rd rd) t2 = .next t3 ∧ (∀ r, t.reg r = t3.reg r) ∧
    CompletedFrame [rd] s.hstate s t

/-- The lane map is the XOR of the eight table look-ups, one per byte of the lane, byte 0 the most
significant; with the rule's spot values (R113). -/
def Obligations.LaneMapIsEightTableLookups : Prop :=
  (∀ v : Lane, laneMap v =
    (List.range 8).foldl (fun acc j => acc ^^^ laneTable j (v.extractLsb' (8 * (7 - j)) 8)) 0) ∧
  laneTable 0 0x80 = 0x8E20FAA72BA0B470 ∧ laneTable 0 0x01 = 0x83478B07B2468764 ∧
  laneTable 0 0xFF = 0x7EF6D5C75C09A57C ∧ laneTable 3 0x5A = 0xEED5A3991E215FAC ∧
  laneTable 7 0x01 = 0x641C314B2B8EE083 ∧ laneTable 7 0x80 = 0x70A6A56E2440598E ∧
  laneTable 7 0xFF = 0x7C3B228621F1C57E

/-- L is linear: LIN of an XOR is the XOR of the LINs (the corner case of R144). -/
def Obligations.LinIsLinear : Prop :=
  ∀ s : State, ∃ t1 t2 t3 t4 t5 : State,
    exec (.xor .t0 .m .iv) s = .next t1 ∧ exec (.lin .t0 .t0) t1 = .next t2 ∧
    exec (.lin .m .m) s = .next t3 ∧ exec (.lin .iv .iv) t3 = .next t4 ∧
    exec (.xor .t0 .m .iv) t4 = .next t5 ∧ t2.reg .t0 = t5.reg .t0

/-- LDC loads ROM_C[imm] for imm 1 to 12 (R116). -/
def Obligations.LdcLoadsTheConstant : Prop :=
  ∀ (s : State) (rd : Reg) (imm : BitVec 10), 1 ≤ imm.toNat → imm.toNat ≤ 12 →
    ∃ t, exec (.ldc rd imm) s = .next t ∧ t.reg rd = romC imm.toNat ∧
      CompletedFrame [rd] s.hstate s t

/-! ### Compression and padding -/

/-- E is the 12-round transform of R160: there are the keys and values of its rounds, key r+1 from key r and
ROM_C[r+1], value r+1 from value r and key r+1, and the twelfth value is the result; and in the unrolled
form of the rule, 13 key additions and 12 LPS applications starting from m give the same result. -/
def Obligations.EIsTwelveRounds : Prop :=
  ∀ (s : State) (rd ra rb : Reg), ∃ t, exec (.e rd ra rb) s = .next t ∧
    (∃ key value : Nat → Block,
      key 0 = s.reg ra ∧ value 0 = xorBlock (s.reg ra) (s.reg rb) ∧
      (∀ r, r < 12 → key (r + 1) = lps (xorBlock (key r) (romC (r + 1))) ∧
        value (r + 1) = xorBlock (lps (value r)) (key (r + 1))) ∧
      t.reg rd = value 12 ∧
      ∃ w : Nat → Block, w 0 = s.reg rb ∧
        (∀ r, r < 12 → w (r + 1) = lps (xorBlock (key r) (w r))) ∧
        t.reg rd = xorBlock (key 12) (w 12)) ∧
    CompletedFrame [rd] s.hstate s t

/-- G h, m, N is `xor(xor(E(lps(xor(h, N)), m), h), m)` (R162), E being what the command E computes: here
from the key placed in T0 and m placed in T1. -/
def Obligations.GIsTheCompression : Prop :=
  ∀ (s : State) (rd ra rb : Reg), ∃ t, exec (.g rd ra rb) s = .next t ∧
    CompletedFrame [rd] s.hstate s t ∧
    ∀ u v : State, u.reg .t0 = lps (xorBlock (s.reg rd) (s.reg rb)) → u.reg .t1 = s.reg ra →
      exec (.e .t1 .t0 .t1) u = .next v →
      t.reg rd = xorBlock (xorBlock (v.reg .t1) (s.reg rd)) (s.reg ra)

/-- Neither E nor G changes any register other than rd, and the scratch they used is not visible in any
read of the window (R165). -/
def Obligations.EAndGChangeOnlyTheirDestination : Prop :=
  ∀ (s : State) (rd ra rb : Reg),
    (∃ t, exec (.e rd ra rb) s = .next t ∧ (∀ r, r ≠ rd → t.reg r = s.reg r) ∧
      ∀ c off, windowRead { t with scratch := c } off = windowRead t off) ∧
    (∃ t, exec (.g rd ra rb) s = .next t ∧ (∀ r, r ≠ rd → t.reg r = s.reg r) ∧
      ∀ c off, windowRead { t with scratch := c } off = windowRead t off)

/-- PAD, for n up to 512: with n = 512 the block is copied; else bits below n are kept, bit n is set and the
bits above it are zero (R180). -/
def Obligations.PadKeepsTheLowBits : Prop :=
  ∀ (s : State) (rd ra : Reg) (imm : BitVec 10), imm.toNat ≤ 512 →
    ∃ t, exec (.pad rd ra imm) s = .next t ∧
      (imm.toNat = 512 → t.reg rd = s.reg ra) ∧
      (imm.toNat < 512 → ∀ b, b < 512 → (t.reg rd).getLsbD b =
        if b < imm.toNat then (s.reg ra).getLsbD b else decide (b = imm.toNat)) ∧
      CompletedFrame [rd] s.hstate s t

/-! ### Rejection inside exec -/

/-- A command whose immediate is out of range is rejected, with KEY_LEN for KPAD and IMM_RANGE for LDC, PAD
and HFIN, whatever HSTATE is, and nothing else changes (R93, R244, R248). -/
def Obligations.OutOfRangeImmediatesAreRejected : Prop :=
  ∀ (i : Instr) (s : State), ¬ i.WellFormed →
    ∃ t, exec i s = .next t ∧
      RejectedWith (match i with | .kpad _ _ => .keyLen | _ => .immRange) (encode i) s t

/-! ### The hash engine -/

/-- HINIT: (h, N, Σ) = Init(IV) = (IV, 0, 0), in every HSTATE, and HSTATE becomes ACCUM (R191, R194). -/
def Obligations.HinitStartsFromIv : Prop :=
  ∀ s : State, ∃ t, exec .hinit s = .next t ∧
    t.reg .h = s.reg .iv ∧ t.reg .n = 0 ∧ t.reg .sigma = 0 ∧
    CompletedFrame [.h, .n, .sigma] .accum s t

/-- HBLK in ACCUM: h = G(h, m, N) with the N from before the update, N + 512 and Σ + m modulo 2^512
(R192). -/
def Obligations.HblkAccumulatesTheBlock : Prop :=
  ∀ s : State, s.hstate = .accum → ∃ t, exec .hblk s = .next t ∧
    t.reg .h = compress (s.reg .h) (s.reg .m) (s.reg .n) ∧
    (t.reg .n).toNat = ((s.reg .n).toNat + 512) % 2 ^ 512 ∧
    (t.reg .sigma).toNat = ((s.reg .sigma).toNat + (s.reg .m).toNat) % 2 ^ 512 ∧
    CompletedFrame [.h, .n, .sigma] .accum s t

/-- HFIN n in ACCUM, n up to 512: the Finalizing step of R193 on the padded block p: G under the old N, then
N + n and Σ + p modulo 2^512, then G over the new N and over the new Σ with a zero counter. -/
def Obligations.HfinFinalises : Prop :=
  ∀ (s : State) (imm : BitVec 10), imm.toNat ≤ 512 → s.hstate = .accum →
    ∃ t p h1 h2, exec (.hfin imm) s = .next t ∧
      (imm.toNat = 512 → p = s.reg .m) ∧
      (imm.toNat < 512 → p.toNat = (s.reg .m).toNat % 2 ^ imm.toNat + 2 ^ imm.toNat) ∧
      h1 = compress (s.reg .h) p (s.reg .n) ∧
      (t.reg .n).toNat = ((s.reg .n).toNat + imm.toNat) % 2 ^ 512 ∧
      (t.reg .sigma).toNat = ((s.reg .sigma).toNat + p.toNat) % 2 ^ 512 ∧
      h2 = compress h1 (t.reg .n) 0 ∧ t.reg .h = compress h2 (t.reg .sigma) 0 ∧
      CompletedFrame [.h, .n, .sigma] .done s t

/-- HRESUME sets HSTATE to ACCUM in every HSTATE and changes no register (R197). -/
def Obligations.HresumeReentersAccum : Prop :=
  ∀ s : State, ∃ t, exec .hresume s = .next t ∧ CompletedFrame [] .accum s t

/-- A hash can be saved and continued (R256): in a state `u` holding the H, N, SIGMA and M of an ACCUM state
`s`, HRESUME and then HBLK or HFIN leave the chain state they leave in `s`. -/
def Obligations.HresumeContinuesASavedHash : Prop :=
  ∀ s u : State, s.hstate = .accum → u.chain = s.chain → u.reg .m = s.reg .m →
    ∃ v, exec .hresume u = .next v ∧
    (∃ a b, exec .hblk s = .next a ∧ exec .hblk v = .next b ∧ b.chain = a.chain ∧
      b.hstate = a.hstate) ∧
    (∀ imm : BitVec 10, imm.toNat ≤ 512 →
      ∃ a b, exec (.hfin imm) s = .next a ∧ exec (.hfin imm) v = .next b ∧ b.chain = a.chain ∧
        b.hstate = a.hstate)

/-- HBLK is what the primitive commands compose to: XOR, LPS, E, XOR, XOR, ADDI 512 and ADD leave the H, N
and SIGMA that HBLK leaves (95_test_vectors.md section 4; R162, R192). -/
def Obligations.PrimitiveCommandsComposeToHblk : Prop :=
  ∀ s : State, s.hstate = .accum → ∃ t a1 a2 a3 a4 a5 a6 a7 : State, exec .hblk s = .next t ∧
    exec (.xor .t0 .h .n) s = .next a1 ∧ exec (.lps .t0 .t0) a1 = .next a2 ∧
    exec (.e .t1 .t0 .m) a2 = .next a3 ∧ exec (.xor .t1 .t1 .h) a3 = .next a4 ∧
    exec (.xor .h .t1 .m) a4 = .next a5 ∧ exec (.addi .n .n 512) a5 = .next a6 ∧
    exec (.add .sigma .sigma .m) a6 = .next a7 ∧ a7.chain = t.chain

/-! ### HMAC and system -/

/-- KPAD, klen 1 to 64: ALIGN = 0 keeps bytes 0 to klen-1 of KEY, ALIGN = 1 keeps bytes 64-klen to 63, every
other byte becomes 0 (R211). -/
def Obligations.KpadKeepsKlenBytes : Prop :=
  ∀ (s : State) (align : Bool) (klen : BitVec 7), 1 ≤ klen.toNat → klen.toNat ≤ 64 →
    ∃ t, exec (.kpad align klen) s = .next t ∧
      (∀ k, k < 64 → byte (t.reg .key) k =
        if (if align then 64 - klen.toNat ≤ k else k < klen.toNat) then byte (s.reg .key) k
        else 0) ∧
      CompletedFrame [.key] s.hstate s t

/-- KHASH in DONE copies all of H to KEY, whatever CTRL is (R212). -/
def Obligations.KhashCopiesTheDigest : Prop :=
  ∀ s : State, s.hstate = .done → ∃ t, exec .khash s = .next t ∧
    t.reg .key = s.reg .h ∧ CompletedFrame [.key] .done s t

/-- HIPAD in every HSTATE: M is KEY XOR 0x36 (0x35 when CTRL.IPAD35, bit 3, is 1) in every byte, the chain
state is Init(0), HSTATE is ACCUM, KEY and IV stay (R213, R217). -/
def Obligations.HipadFormsTheInnerPad : Prop :=
  ∀ s : State, ∃ t, exec .hipad s = .next t ∧
    (∀ k, k < 64 → byte (t.reg .m) k =
      byte (s.reg .key) k ^^^ (if s.ctrl.getLsbD 3 then 0x35 else 0x36)) ∧
    t.reg .h = 0 ∧ t.reg .n = 0 ∧ t.reg .sigma = 0 ∧
    CompletedFrame [.m, .h, .n, .sigma] .accum s t

/-- HOUTER in DONE: the opad block is KEY XOR 0x5C in every byte; it is compressed first, then the inner
digest H; with CTRL.BNDPAD (bit 1) = 0 as the last block, with BNDPAD = 1 followed by the padding block
blk(1); N ends at blk(1024), KEY and M are zeroed, HSTATE stays DONE, T0, T1 and IV stay (R214, R216). -/
def Obligations.HouterRunsTheOuterHash : Prop :=
  ∀ s : State, s.hstate = .done →
    ∃ t opad h1 h2 h3, exec .houter s = .next t ∧
      (∀ k, k < 64 → byte opad k = byte (s.reg .key) k ^^^ 0x5C) ∧
      h1 = compress 0 opad 0 ∧ h2 = compress h1 (s.reg .h) (blk 512) ∧
      h3 = (if s.ctrl.getLsbD 1 then compress h2 (blk 1) (blk 1024) else h2) ∧
      t.reg .h = compress (compress h3 (blk 1024) 0) (t.reg .sigma) 0 ∧
      t.reg .n = blk 1024 ∧
      (t.reg .sigma).toNat = (opad.toNat + (s.reg .h).toNat +
        if s.ctrl.getLsbD 1 then 1 else 0) % 2 ^ 512 ∧
      t.reg .key = 0 ∧ t.reg .m = 0 ∧
      CompletedFrame [.h, .n, .sigma, .key, .m] .done s t

/-- WIPE zeroes every block register and the scratch and sets HSTATE to IDLE; CTRL and the error record
stay (R231). -/
def Obligations.WipeClearsTheData : Prop :=
  ∀ s : State, ∃ t, exec .wipe s = .next t ∧ (∀ r, t.reg r = 0) ∧ t.scratch = .zero ∧
    CompletedFrame [.h, .n, .sigma, .m, .iv, .key, .t0, .t1] .idle s t

/-! ### Whole-machine rules -/

/-- R190: HSTATE changes only as the table gives. A command in its required HSTATE leaves the table's
HSTATE; otherwise it is rejected with SEQUENCE and changes nothing; no host access changes HSTATE. -/
def Obligations.HstateFollowsTheTable : Prop :=
  (∀ (i : Instr) (s : State), i.WellFormed →
    (sequenceHolds i s.hstate →
      ∃ t, exec i s = .next t ∧ t.hstate = hstateAfter i s.hstate) ∧
    (¬ sequenceHolds i s.hstate →
      ∃ t, exec i s = .next t ∧ RejectedWith .sequence (encode i) s t)) ∧
  (∀ (i : Instr) (s t : State), ¬ i.WellFormed → exec i s = .next t → t.hstate = s.hstate) ∧
  (∀ (a : Access) (s t : State), hostAccess a s = .next t → t.hstate = s.hstate)

/-- Every well-formed command in its required HSTATE completes: the registers it does not write, CTRL and the
error record are unchanged, and it never faults part-way (R249, R190). -/
def Obligations.EveryAcceptedCommandCompletes : Prop :=
  ∀ (i : Instr) (s : State), i.WellFormed → sequenceHolds i s.hstate →
    ∃ t, exec i s = .next t ∧
      CompletedFrame (writtenRegs i) (hstateAfter i s.hstate) s t

/-- The frame through the host's window: after a completed command every word of the window reads as it
would before it with BUSY = 0, but for STATUS, the words of the registers the command writes, and DIGEST
where it writes H (10_state.md section 3; R240, R232). -/
def Obligations.OtherWindowWordsReadAsBefore : Prop :=
  ∀ (i : Instr) (s : State) (off : Offset), i.WellFormed → sequenceHolds i s.hstate →
    ¬ showsResultOf i off →
    ∃ t, exec i s = .next t ∧ windowRead t off = windowRead { s with pending := none } off

/-- No command ever stops the machine, changes CTRL or reaches outside the engine, in any state; BUSY is 0
and DONE is 1 after it (R232, R240, R249). -/
def Obligations.NoCommandStopsOrChangesCtrl : Prop :=
  ∀ (i : Instr) (s : State), ∃ t, exec i s = .next t ∧ t.ctrl = s.ctrl ∧ t.busy = false ∧
    t.done = true ∧ t.resetAsserted = s.resetAsserted ∧ t.schedule = s.schedule ∧
    t.readData = s.readData ∧ t.engineId = s.engineId

/-- CTRL is read by HIPAD (IPAD35, bit 3) and HOUTER (BNDPAD, bit 1) alone: any other command, and these two
under a CTRL that agrees in their bit, leave the same block registers and HSTATE (R37, R277). -/
def Obligations.OnlyHipadAndHouterReadCtrl : Prop :=
  ∀ (i : Instr) (s : State) (c : BitVec 4),
    (i = .hipad → c.getLsbD 3 = s.ctrl.getLsbD 3) →
    (i = .houter → c.getLsbD 1 = s.ctrl.getLsbD 1) →
    ∃ t u, exec i s = .next t ∧ exec i { s with ctrl := c } = .next u ∧
      u.regs = t.regs ∧ u.hstate = t.hstate ∧ u.ctrl = c

/-- The scratch is not read: whatever it holds, a command leaves the same state but for the scratch (R50). -/
def Obligations.ScratchIsNeverRead : Prop :=
  ∀ (i : Instr) (s : State) (c : Scratch),
    ∃ t u, exec i s = .next t ∧ exec i { s with scratch := c } = .next u ∧
      { u with scratch := t.scratch } = t

/-- The compressions of an accepted command are those R279 counts, one E transform each; they follow one
another, and H after HBLK, HFIN and HOUTER is what the last one gave. -/
def Obligations.CompressionsAreCounted : Prop :=
  ∀ (i : Instr) (s : State), i.WellFormed → sequenceHolds i s.hstate →
    (gCalls i s).length = compressionCount i (s.ctrl.getLsbD 1) ∧
    eTransforms i s = compressionCount i (s.ctrl.getLsbD 1) +
      (match i with | .e _ _ _ => 1 | _ => 0) ∧
    callsLinked (gCalls i s) ∧
    ∃ t, exec i s = .next t ∧
      ∀ last, (gCalls i s).getLast? = some last →
        t.reg (match i with | .g rd _ _ => rd | _ => .h) = callResult last

/-! ### The invariant -/

/-- The invariant holds at reset. -/
def Obligations.InvariantHoldsAtReset : Prop := EngineInv State.reset

/-- Every step keeps the invariant, from every state that has it. -/
def Obligations.EveryStepKeepsTheInvariant : Prop :=
  ∀ s t : State, EngineInv s → step s = .next t → EngineInv t

/-- An accepted command never faults part-way and no error is raised in it (R240, R249): in a state that
has the invariant, the sequencer's step completes the pending command with the command's frame, the error
record unchanged. -/
def Obligations.AcceptedCommandsCompleteWithoutError : Prop :=
  ∀ (s : State) (v : Word) (rest : List Move), EngineInv s → s.resetAsserted = false →
    s.pending = some v → s.schedule = .sequencer :: rest →
    ∃ i t, decode v = .ok i ∧ step s = .next t ∧
      CompletedFrame (writtenRegs i) (hstateAfter i s.hstate) { s with schedule := rest } t

/-! ### The host's window -/

/-- R243, a host access while BUSY = 1. A CMD write records CMD_BUSY and is otherwise ignored; a write to
CTRL or to a word at 0x100 to 0x2FF records WRITE_BUSY with its offset and is dropped; a STATUS write is
performed; writes elsewhere are ignored; a read is no error; and nothing disturbs the pending command, the
registers, CTRL or HSTATE. -/
def Obligations.BusyAccessesAreDropped : Prop :=
  ∀ (s : State) (off : Offset) (v : Word), s.busy = true → off.toNat % 4 = 0 →
    ∃ t u, hostAccess ⟨.write v, off, 32⟩ s = .next t ∧ hostAccess ⟨.read, off, 32⟩ s = .next u ∧
      (off = 0x008 → t = recordError .cmdBusy v s) ∧
      (off = 0x004 ∨ (0x100 ≤ off.toNat ∧ off.toNat < 0x300) →
        t = recordError .writeBusy (off.setWidth 32) s) ∧
      (off = 0x00C → t = writeStatus v s) ∧
      (off = 0x000 ∨ off = 0x010 ∨ (0x014 ≤ off.toNat ∧ off.toNat < 0x100) ∨ 0x300 ≤ off.toNat →
        t = s) ∧
      (u.err = s.err ∧ u.errcode = s.errcode ∧ u.errcmd = s.errcmd) ∧
      (t.pending = s.pending ∧ t.regs = s.regs ∧ t.ctrl = s.ctrl ∧ t.hstate = s.hstate ∧
        t.scratch = s.scratch) ∧
      (u.pending = s.pending ∧ u.regs = s.regs ∧ u.ctrl = s.ctrl ∧ u.hstate = s.hstate ∧
        u.scratch = s.scratch)

/-- R242: an error is recorded if ERR = 0; while ERR = 1 no move of an agent changes the record, but the
host's write of 1 to STATUS bit 2, which zeroes ERR, ERRCODE and ERRCMD together, and reset. -/
def Obligations.FirstErrorIsKept : Prop :=
  (∀ (code : ErrCode) (val : Word) (s : State), s.err = false →
    recordError code val s = { s with err := true, errcode := code, errcmd := val }) ∧
  (∀ (mv : Move) (s t : State), s.err = true → makeMove mv s = .next t → mv ≠ .reset false →
    (∀ v : Word, mv = .host ⟨.write v, 0x00C, 32⟩ → v.getLsbD 2 = false) →
    t.err = true ∧ t.errcode = s.errcode ∧ t.errcmd = s.errcmd) ∧
  (∀ (v : Word) (s : State), v.getLsbD 2 = true →
    ∃ t, hostAccess ⟨.write v, 0x00C, 32⟩ s = .next t ∧
      t.err = false ∧ t.errcode = .none ∧ t.errcmd = 0)

/-- A host write to STATUS, BUSY or not: DONE is cleared exactly if bit 1 is written as 1, the error record
exactly if bit 2 is, and every other bit is ignored (R39, R250). -/
def Obligations.StatusWriteOneClears : Prop :=
  ∀ (v : Word) (s : State), ∃ t, hostAccess ⟨.write v, 0x00C, 32⟩ s = .next t ∧
    t.done = (s.done && !v.getLsbD 1) ∧
    t.err = (s.err && !v.getLsbD 2) ∧
    t.errcode = (if v.getLsbD 2 then .none else s.errcode) ∧
    t.errcmd = (if v.getLsbD 2 then 0 else s.errcmd) ∧
    t.regs = s.regs ∧ t.ctrl = s.ctrl ∧ t.hstate = s.hstate ∧ t.pending = s.pending ∧
    t.scratch = s.scratch

/-- STATUS as the host reads it at any time: BUSY bit 0, DONE bit 1, ERR bit 2, HSTATE 5:4, ERRCODE 11:8, as
numbers, and every other bit 0 (R39, R35, R241). -/
def Obligations.StatusReadsItsFields : Prop :=
  ∀ s : State, ∃ t, hostAccess ⟨.read, 0x00C, 32⟩ s = .next t ∧
    t.readData.toNat = s.busy.toNat + 2 * s.done.toNat + 4 * s.err.toNat +
      16 * (match s.hstate with | .idle => 0 | .accum => 1 | .done => 2) +
      256 * (match s.errcode with
        | .none => 0 | .illegalOp => 1 | .reservedField => 2 | .immRange => 3
        | .sequence => 4 | .cmdBusy => 5 | .keyLen => 6 | .writeBusy => 7)

/-- IRQ is DONE AND IE (CTRL bit 0): under IE = 1 it is asserted when a command completes or is rejected, it
drops at the acceptance of a command and at a write of 1 to STATUS bit 1, and with IE = 0 it is masked
(R246, R247). -/
def Obligations.IrqFollowsDone : Prop :=
  ∀ s : State,
    (irq s = true ↔ s.done = true ∧ s.ctrl.getLsbD 0 = true) ∧
    (∀ i, ∃ t, exec i s = .next t ∧ irq t = s.ctrl.getLsbD 0) ∧
    (∀ v, s.busy = false → checkOrder v s.hstate ≠ .none →
      irq (present v s) = s.ctrl.getLsbD 0) ∧
    (∀ v, s.busy = false → checkOrder v s.hstate = .none → irq (present v s) = false) ∧
    (∀ v : Word, v.getLsbD 1 = true → irq (writeStatus v s) = false)

/-- ID always reads 0x53545207, and a write to it is ignored without error (R36). -/
def Obligations.IdReadsItsConstant : Prop :=
  ∀ (s : State) (v : Word),
    (∃ t, hostAccess ⟨.read, 0x000, 32⟩ s = .next t ∧ t.readData = 0x53545207) ∧
    hostAccess ⟨.write v, 0x000, 32⟩ s = .next s

/-- Reserved offsets read 0 and ignore writes without error, whatever BUSY is (R42). -/
def Obligations.ReservedOffsetsReadZero : Prop :=
  ∀ (s : State) (off : Offset) (v : Word), off.toNat % 4 = 0 →
    (0x014 ≤ off.toNat ∧ off.toNat < 0x100) ∨ 0x340 ≤ off.toNat →
    hostAccess ⟨.read, off, 32⟩ s = .next { s with readData := 0 } ∧
    hostAccess ⟨.write v, off, 32⟩ s = .next s

/-- A write of `v` to CTRL while BUSY = 0 makes CTRL read `v AND 0xF` and changes nothing else; CTRL, CMD
and ERRCMD read exactly at any time (R37, R38, R40, R84). -/
def Obligations.CtrlReadsBackItsFourBits : Prop :=
  ∀ (s : State) (v : Word),
    (s.busy = false → ∃ t u, hostAccess ⟨.write v, 0x004, 32⟩ s = .next t ∧
      t = { s with ctrl := t.ctrl } ∧
      hostAccess ⟨.read, 0x004, 32⟩ t = .next u ∧ u.readData = v &&& 0xF) ∧
    hostAccess ⟨.read, 0x004, 32⟩ s = .next { s with readData := s.ctrl.setWidth 32 } ∧
    hostAccess ⟨.read, 0x008, 32⟩ s = .next { s with readData := 0 } ∧
    hostAccess ⟨.read, 0x010, 32⟩ s = .next { s with readData := s.errcmd }

/-- While BUSY = 0, a write of `v` to word w of block register r, at 0x100 + 0x40*r + 4*w, replaces bytes 4w
to 4w+3 by the bytes of `v` from bits 31:24 down, leaves the other 60 bytes and every other field, and reads
back as `v` (R41, R71). -/
def Obligations.BlockWordsReadBackAsWritten : Prop :=
  ∀ (s : State) (r : BitVec 3) (w : Nat) (v : Word) (off : Offset), s.busy = false → w < 16 →
    off.toNat = 0x100 + 0x40 * r.toNat + 4 * w →
    ∃ t u, hostAccess ⟨.write v, off, 32⟩ s = .next t ∧
      byte (t.reg (Reg.ofBits r)) (4 * w) = v.extractLsb' 24 8 ∧
      byte (t.reg (Reg.ofBits r)) (4 * w + 1) = v.extractLsb' 16 8 ∧
      byte (t.reg (Reg.ofBits r)) (4 * w + 2) = v.extractLsb' 8 8 ∧
      byte (t.reg (Reg.ofBits r)) (4 * w + 3) = v.extractLsb' 0 8 ∧
      (∀ k, k < 64 → k / 4 ≠ w →
        byte (t.reg (Reg.ofBits r)) k = byte (s.reg (Reg.ofBits r)) k) ∧
      (∀ q, q ≠ Reg.ofBits r → t.reg q = s.reg q) ∧ { t with regs := s.regs } = s ∧
      hostAccess ⟨.read, off, 32⟩ t = .next u ∧ u.readData = v

/-- DIGEST, while BUSY = 0: with CTRL.VARIANT (bit 2) = 0, word w at 0x300 + 4*w reads as word w of H; with
VARIANT = 1 so do words 0 to 7, and words 8 to 15 read 0; a write is ignored (R41). -/
def Obligations.DigestShowsH : Prop :=
  ∀ (s : State) (w : Nat) (off : Offset) (v : Word), s.busy = false → w < 16 →
    off.toNat = 0x300 + 4 * w →
    (∃ t, hostAccess ⟨.read, off, 32⟩ s = .next t ∧
      t.readData = if s.ctrl.getLsbD 2 = true ∧ 8 ≤ w then 0
        else byte (s.reg .h) (4 * w) ++ byte (s.reg .h) (4 * w + 1) ++
          byte (s.reg .h) (4 * w + 2) ++ byte (s.reg .h) (4 * w + 3)) ∧
    hostAccess ⟨.write v, off, 32⟩ s = .next s

/-- While BUSY = 1 a read of a block register word or of a DIGEST word returns a fresh free value, whatever
the registers hold; every read, at any time, changes no field but what the host holds and the draw counter
(R278, R75; the free value is log entry 4). -/
def Obligations.BusyBlockReadsAreFree : Prop :=
  (∀ (s : State) (off : Offset), s.busy = true → off.toNat % 4 = 0 → 0x100 ≤ off.toNat →
    off.toNat < 0x340 →
    hostAccess ⟨.read, off, 32⟩ s =
      .next { s with readData := Config.anyWord s.engineId s.draws, draws := s.draws + 1 }) ∧
  (∀ (s t : State) (off : Offset) (width : Nat), hostAccess ⟨.read, off, width⟩ s = .next t →
    { t with readData := s.readData, draws := s.draws } = s)

/-- An access gets a bus error exactly when it is not 32 bits wide or not at a multiple of 4; it is then a
fault of the step, and otherwise the access is performed (R73). -/
def Obligations.OnlyAlignedWordAccessesArePerformed : Prop :=
  ∀ (a : Access) (s : State),
    (a.width ≠ 32 ∨ a.off.toNat % 4 ≠ 0 → hostAccess a s = .fault .busError) ∧
    (a.width = 32 → a.off.toNat % 4 = 0 → ∃ t, hostAccess a s = .next t)

/-- A physical address reaches the window of the engine at a page exactly when it lies in BASE to
BASE + 0xFFF, at the offset it has from BASE, and BASE is 4 KiB-aligned (R7, R76; log entry 6). Engines in
windows of their own share nothing (R255): a platform's step makes the next move of its schedule; a move
leaves every engine it is not for as it was, and the engines in their windows; an access at BASE plus an
offset, a sequencer move and a reset change do to their engine what they do to it alone; an access
outside every window does nothing; and moves of two engines commute (the platform is the model's, log
entry 11). -/
def Obligations.WindowLiesAtBase : Prop :=
  (∀ page : Nat, Config.base page % 0x1000 = 0 ∧
    (∀ off : Offset, windowOffset page (Config.base page + off.toNat) = some off) ∧
    (∀ addr : Nat, addr < Config.base page ∨ Config.base page + 0x1000 ≤ addr →
      windowOffset page addr = none)) ∧
  (∀ (p : Platform) (mv : PlatformMove) (rest : List PlatformMove), p.schedule = mv :: rest →
    platformStep p = platformMove mv { p with schedule := rest }) ∧
  (∀ (p q : Platform) (mv : PlatformMove), p.WellPlaced → platformMove mv p = .next q →
    q.WellPlaced ∧ q.engines.length = p.engines.length ∧ q.schedule = p.schedule ∧
    ∀ k, ¬ movesEngine p k mv → q.engines[k]? = p.engines[k]?) ∧
  (∀ (p : Platform) (k : Nat) (e : Engine) (kind : AccessKind) (off : Offset) (width : Nat),
    p.WellPlaced → p.engines[k]? = some e →
    (∀ t, makeMove (.host ⟨kind, off, width⟩) e.state = .next t →
      platformMove (.bus kind (Config.base e.page + off.toNat) width) p =
        .next { p with engines := p.engines.set k { e with state := t } }) ∧
    (∀ f, makeMove (.host ⟨kind, off, width⟩) e.state = .fault f →
      platformMove (.bus kind (Config.base e.page + off.toNat) width) p = .fault f)) ∧
  (∀ (p : Platform) (k : Nat) (e : Engine) (t : State), p.engines[k]? = some e →
    (makeMove .sequencer e.state = .next t → platformMove (.sequencer k) p =
      .next { p with engines := p.engines.set k { e with state := t } }) ∧
    (∀ b, makeMove (.reset b) e.state = .next t → platformMove (.reset k b) p =
      .next { p with engines := p.engines.set k { e with state := t } })) ∧
  (∀ (p : Platform) (kind : AccessKind) (addr width : Nat),
    (∀ k, ¬ movesEngine p k (.bus kind addr width)) →
    platformMove (.bus kind addr width) p = .next p) ∧
  (∀ (p q r : Platform) (j k : Nat) (m n : Move), j ≠ k → moveEngine j m p = .next q →
    moveEngine k n p = .next r →
    ∃ u, moveEngine k n q = .next u ∧ moveEngine j m r = .next u)

/-! ### Reset -/

/-- Asserting reset and releasing it, from any state, leaves R51's values: every block register 0, CTRL,
STATUS and ERRCMD 0, no pending command, IRQ 0 (R270); while it is asserted a host access or a sequencer
move has no step (the model's fault, log entry 7). -/
def Obligations.ResetPulseRestoresTheResetState : Prop :=
  ∀ (s : State) (rest : List Move), s.schedule = .reset true :: .reset false :: rest →
    ∃ t u, step s = .next t ∧ t.resetAsserted = true ∧ t.pending = none ∧
      (∀ a, makeMove (.host a) t = .fault .resetAsserted) ∧
      makeMove .sequencer t = .fault .resetAsserted ∧
      step t = .next u ∧ (∀ r, u.reg r = 0) ∧ ctrlWord u = 0 ∧ statusWord u = 0 ∧
      u.errcmd = 0 ∧ u.pending = none ∧ u.hstate = .idle ∧ irq u = false ∧
      u.resetAsserted = false ∧ u.schedule = rest

/-- HSTATE returns to IDLE by the completion of a WIPE or by reset alone, and CTRL changes by a host write
to CTRL or by reset alone (R270). -/
def Obligations.OnlyWipeAndResetReturnToIdle : Prop :=
  ∀ (mv : Move) (s t : State), makeMove mv s = .next t →
    (s.hstate ≠ .idle → t.hstate = .idle →
      (mv = .sequencer ∧ s.pending = some 0x0000003F) ∨
        (mv = .reset false ∧ s.resetAsserted = true)) ∧
    (t.ctrl ≠ s.ctrl → (∃ v, mv = .host ⟨.write v, 0x004, 32⟩) ∨
      (mv = .reset false ∧ s.resetAsserted = true))

/-- At reset every window word reads 0, but ID: the values of R51 as the host sees them, whatever word `x`
the host's read before it returned. -/
def Obligations.ResetWindowReadsZeroButId : Prop :=
  ∀ (off : Offset) (x : Word), off.toNat % 4 = 0 → off ≠ 0 →
    hostAccess ⟨.read, off, 32⟩ { State.reset with readData := x } =
      .next { State.reset with readData := 0 }
end

