-- ==== Sys2Proof/Laws/Bytes.lean ====
section
/-! SUPPORT. Blocks as bytes and lanes: what `ofBytes` and `ofLanes` hold, and that a block is its bytes. -/

namespace Sys2Proof.Machine

theorem packBytes_lt (f : Nat → Byte) (n : Nat) : packBytes f n < 256 ^ n := by
  induction n with
  | zero => simp [packBytes]
  | succ n ih =>
    have := (f n).isLt
    simp only [packBytes, Nat.pow_succ]
    omega

theorem packBytes_digit (f : Nat → Byte) (n k : Nat) (h : k < n) :
    packBytes f n / 256 ^ (n - 1 - k) % 256 = (f k).toNat := by
  induction n with
  | zero => omega
  | succ n ih =>
    have hb := (f n).isLt
    rcases Nat.lt_or_ge k n with hk | hk
    · have e : n + 1 - 1 - k = (n - 1 - k) + 1 := by omega
      rw [e, Nat.pow_succ', ← Nat.div_div_eq_div_mul]
      have : packBytes f (n + 1) / 256 = packBytes f n := by simp only [packBytes]; omega
      rw [this, ih hk]
    · have : k = n := by omega
      subst this
      have e : k + 1 - 1 - k = 0 := by omega
      rw [e]
      simp only [packBytes, Nat.pow_zero, Nat.div_one]
      omega

theorem packLanes_lt (f : Nat → Lane) (n : Nat) : packLanes f n < (2 ^ 64) ^ n := by
  induction n with
  | zero => simp [packLanes]
  | succ n ih =>
    rw [Nat.pow_succ (2 ^ 64)]
    calc packLanes f n * 2 ^ 64 + (f n).toNat
        < packLanes f n * 2 ^ 64 + 2 ^ 64 := Nat.add_lt_add_left (f n).isLt _
      _ = (packLanes f n + 1) * 2 ^ 64 := (Nat.succ_mul _ _).symm
      _ ≤ (2 ^ 64) ^ n * 2 ^ 64 := Nat.mul_le_mul_right _ ih

theorem packLanes_digit (f : Nat → Lane) (n k : Nat) (h : k < n) :
    packLanes f n / (2 ^ 64) ^ (n - 1 - k) % 2 ^ 64 = (f k).toNat := by
  induction n with
  | zero => omega
  | succ n ih =>
    have hb := (f n).isLt
    rcases Nat.lt_or_ge k n with hk | hk
    · have e : n + 1 - 1 - k = (n - 1 - k) + 1 := by omega
      rw [e, Nat.pow_succ', ← Nat.div_div_eq_div_mul]
      have : packLanes f (n + 1) / 2 ^ 64 = packLanes f n := by simp only [packLanes]; omega
      rw [this, ih hk]
    · have : k = n := by omega
      subst this
      have e : k + 1 - 1 - k = 0 := by omega
      rw [e]
      simp only [packLanes, Nat.pow_zero, Nat.div_one]
      omega

theorem blk_toNat (x : Nat) : (blk x).toNat = x % 2 ^ 512 := BitVec.toNat_ofNat x 512

theorem blk_toNat_of_lt (x : Nat) (h : x < 2 ^ 512) : (blk x).toNat = x :=
  (blk_toNat x).trans (Nat.mod_eq_of_lt h)

/-- `byte k` of a block is its base-256 digit of weight `256^(63-k)` (R11). -/
theorem byte_toNat (v : Block) (k : Nat) : (byte v k).toNat = v.toNat / 256 ^ (63 - k) % 256 := by
  simp only [byte, BitVec.extractLsb'_toNat, Nat.shiftRight_eq_div_pow]
  rw [Nat.pow_mul]

theorem lane_toNat (v : Block) (j : Nat) :
    (lane v j).toNat = v.toNat / (2 ^ 64) ^ (7 - j) % 2 ^ 64 := by
  simp only [lane, BitVec.extractLsb'_toNat, Nat.shiftRight_eq_div_pow]
  rw [Nat.pow_mul]

/-- The bytes of `ofBytes f` are the values of `f`. -/
theorem byte_ofBytes (f : Nat → Byte) (k : Nat) (h : k < 64) : byte (ofBytes f) k = f k := by
  apply BitVec.eq_of_toNat_eq
  have hlt : packBytes f 64 < 2 ^ 512 := by
    have := packBytes_lt f 64
    rwa [show (256 : Nat) = 2 ^ 8 from rfl, ← Nat.pow_mul] at this
  rw [byte_toNat, ofBytes, blk_toNat_of_lt _ hlt]
  exact packBytes_digit f 64 k h

/-- The lanes of `ofLanes f` are the values of `f`. -/
theorem lane_ofLanes (f : Nat → Lane) (j : Nat) (h : j < 8) : lane (ofLanes f) j = f j := by
  apply BitVec.eq_of_toNat_eq
  have hlt : packLanes f 8 < 2 ^ 512 := by
    have := packLanes_lt f 8
    rwa [← Nat.pow_mul] at this
  rw [lane_toNat, ofLanes, blk_toNat_of_lt _ hlt]
  exact packLanes_digit f 8 j h

theorem byte_getLsbD (v : Block) (k t : Nat) (ht : t < 8) :
    (byte v k).getLsbD t = v.getLsbD (8 * (63 - k) + t) := by
  simp [byte, ht]

theorem lane_getLsbD (v : Block) (j t : Nat) (ht : t < 64) :
    (lane v j).getLsbD t = v.getLsbD (64 * (7 - j) + t) := by
  simp [lane, ht]

/-- A block is its 64 bytes. -/
theorem eq_of_bytes (a b : Block) (h : ∀ k, k < 64 → byte a k = byte b k) : a = b := by
  apply BitVec.eq_of_getLsbD_eq
  intro i hi
  have hk := h (63 - i / 8) (by omega)
  have := congrArg (fun x => x.getLsbD (i % 8)) hk
  simp only [byte_getLsbD _ _ _ (Nat.mod_lt i (by decide : 0 < 8))] at this
  rwa [show 8 * (63 - (63 - i / 8)) + i % 8 = i by omega] at this

/-- A block is its 8 lanes. -/
theorem eq_of_lanes (a b : Block) (h : ∀ j, j < 8 → lane a j = lane b j) : a = b := by
  apply BitVec.eq_of_getLsbD_eq
  intro i hi
  have hk := h (7 - i / 64) (by omega)
  have := congrArg (fun x => x.getLsbD (i % 64)) hk
  simp only [lane_getLsbD _ _ _ (Nat.mod_lt i (by decide : 0 < 64))] at this
  rwa [show 64 * (7 - (7 - i / 64)) + i % 64 = i by omega] at this

theorem byte_xorBlock (a b : Block) (k : Nat) :
    byte (xorBlock a b) k = byte a k ^^^ byte b k := by
  simp only [byte, xorBlock, BitVec.extractLsb'_xor]

theorem lane_xorBlock (a b : Block) (j : Nat) :
    lane (xorBlock a b) j = lane a j ^^^ lane b j := by
  simp only [lane, xorBlock, BitVec.extractLsb'_xor]

theorem byte_fill (c : Byte) (k : Nat) (h : k < 64) : byte (fill c) k = c := byte_ofBytes _ k h

theorem byte_zero (k : Nat) : byte 0 k = 0 := by simp [byte]

theorem byte_subst (a : Block) (k : Nat) (h : k < 64) : byte (subst a) k = romS (byte a k) :=
  byte_ofBytes _ k h

theorem byte_permute (a : Block) (k : Nat) (h : k < 64) :
    byte (permute a) k = byte a (romTau k) := byte_ofBytes _ k h

theorem lane_linear (a : Block) (j : Nat) (h : j < 8) :
    lane (linear a) j = laneMap (lane a j) := lane_ofLanes _ j h

theorem byte_keyPad (align : Bool) (klen : Nat) (key : Block) (k : Nat) (h : k < 64) :
    byte (keyPad align klen key) k =
      if (align = false ∧ klen ≤ k) ∨ (align = true ∧ k < 64 - klen) then 0 else byte key k :=
  byte_ofBytes _ k h

theorem byte_digest (s : State) (k : Nat) (h : k < 64) :
    byte (digest s) k = if s.variant && decide (32 ≤ k) then 0 else byte (s.reg .h) k :=
  byte_ofBytes _ k h

/-- A word written to a block: bytes 4w to 4w+3 are the word's, the other 60 stay. -/
theorem byte_setBusWord (v : Block) (w : Nat) (x : Word) (k : Nat) (h : k < 64) :
    byte (setBusWord v w x) k =
      if k / 4 = w then x.extractLsb' (8 * (3 - k % 4)) 8 else byte v k :=
  byte_ofBytes _ k h

end Sys2Proof.Machine
end

