-- ==== Sys2Proof/Laws/Encoding.lean ====
section
/-! SUPPORT. The command word and its fields, and what the decoder can answer. -/

namespace Sys2Proof

@[simp] theorem Reg.ofBits_toBits (r : Reg) : Reg.ofBits r.toBits = r := by cases r <;> rfl

@[simp] theorem Reg.toBits_ofBits (b : BitVec 3) : (Reg.ofBits b).toBits = b := by
  revert b; decide

/-- Packing the fields and taking them out again loses nothing (R90). -/
@[simp] theorem Fields.ofWord_toWord (f : Fields) : Fields.ofWord f.toWord = f := by
  obtain ⟨op, rd, ra, rb, imm, res⟩ := f
  simp only [Fields.ofWord, Fields.toWord, Fields.mk.injEq]
  refine ⟨?_, ?_, ?_, ?_, ?_, ?_⟩ <;>
  · apply BitVec.eq_of_getLsbD_eq
    intro i hi
    simp only [BitVec.getLsbD_extractLsb', BitVec.getLsbD_append, hi, decide_true, Bool.true_and]
    repeat' split
    all_goals first | omega | (congr 1; omega)

/-- The fields of a word give the word back (R90). -/
@[simp] theorem Fields.toWord_ofWord (w : Word) : (Fields.ofWord w).toWord = w := by
  simp only [Fields.ofWord, Fields.toWord]
  apply BitVec.eq_of_getLsbD_eq
  intro i hi
  simp only [BitVec.getLsbD_append, BitVec.getLsbD_extractLsb']
  repeat' split
  all_goals
    rw [decide_eq_true (by omega), Bool.true_and]
    congr 1
    omega

/-- A form is only asked of an opcode of R94, so the decoder has two ways to refuse a word. -/
theorem decode_error (w : Word) (c : ErrCode) (h : decode w = .error c) :
    c = .illegalOp ∨ c = .reservedField := by
  simp only [decode] at h
  split at h
  · cases h; exact .inl rfl
  · split at h
    · cases h
    · cases h; exact .inr rfl

/-- What the decoder reads is what the fields assemble to, with the reserved bits clear. -/
theorem decode_ok (w : Word) (i : Instr) (h : decode w = .ok i) :
    ∃ form, formOf (Fields.ofWord w).op = some form ∧
      reservedClear form (Fields.ofWord w) = true ∧ i = assemble (Fields.ofWord w) := by
  simp only [decode] at h
  split at h
  · cases h
  · rename_i form hf
    split at h
    · rename_i hc
      cases h
      exact ⟨form, hf, hc, rfl⟩
    · cases h

/-- The decoder on a packed word: it depends on the fields alone. -/
theorem decode_toWord (f : Fields) :
    decode f.toWord =
      match formOf f.op with
      | none => .error .illegalOp
      | some form => if reservedClear form f then .ok (assemble f) else .error .reservedField := by
  have hd : decode f.toWord = (match formOf (Fields.ofWord f.toWord).op with
      | none => .error .illegalOp
      | some form => if reservedClear form (Fields.ofWord f.toWord)
          then .ok (assemble (Fields.ofWord f.toWord)) else .error .reservedField) := rfl
  rwa [Fields.ofWord_toWord] at hd

/-- Two words are equal exactly when their fields are. -/
theorem Fields.word_eq_iff (a b : Word) : a = b ↔ Fields.ofWord a = Fields.ofWord b := by
  refine ⟨fun h => by rw [h], fun h => ?_⟩
  rw [← Fields.toWord_ofWord a, h, Fields.toWord_ofWord]

/-- The fields of a masked word are the masked fields. -/
theorem Fields.ofWord_and (a b : Word) : Fields.ofWord (a &&& b) =
    ⟨(Fields.ofWord a).op &&& (Fields.ofWord b).op, (Fields.ofWord a).rd &&& (Fields.ofWord b).rd,
      (Fields.ofWord a).ra &&& (Fields.ofWord b).ra, (Fields.ofWord a).rb &&& (Fields.ofWord b).rb,
      (Fields.ofWord a).imm &&& (Fields.ofWord b).imm,
      (Fields.ofWord a).res &&& (Fields.ofWord b).res⟩ := by
  simp [Fields.ofWord, BitVec.extractLsb'_and]

/-- OP of a word, as a number. -/
theorem Fields.op_toNat (v : Word) : (Fields.ofWord v).op.toNat = v.toNat % 256 := by
  simp [Fields.ofWord, BitVec.extractLsb'_toNat]

/-- IMM of a word, as a number. -/
theorem Fields.imm_toNat (v : Word) : (Fields.ofWord v).imm.toNat = v.toNat / 2 ^ 17 % 1024 := by
  simp [Fields.ofWord, BitVec.extractLsb'_toNat, Nat.shiftRight_eq_div_pow]

/-- A command is well-formed exactly when it has no range fault (R93). -/
theorem rangeFault_none_iff (i : Instr) : rangeFault i = .none ↔ i.WellFormed := by
  cases i <;> simp [rangeFault, Instr.WellFormed, Instr.wellFormed]

/-- A range fault is IMM_RANGE or KEY_LEN (R93). -/
theorem rangeFault_cases (i : Instr) :
    rangeFault i = .none ∨ rangeFault i = .immRange ∨ rangeFault i = .keyLen := by
  cases i <;> simp only [rangeFault] <;> (try split) <;> simp

end Sys2Proof
end

