-- ==== Sys2Proof/Laws/State.lean ====
section
/-! SUPPORT. One lemma per field of State for every update of it, so that no later proof unfolds a record
update; then the register file's read after write. -/

namespace Sys2Proof.Machine

@[simp] theorem setReg_regs (s : State) (r : Reg) (v : Block) : (s.setReg r v).regs = s.regs.set r v := rfl
@[simp] theorem setReg_ctrl (s : State) (r : Reg) (v : Block) : (s.setReg r v).ctrl = s.ctrl := rfl
@[simp] theorem setReg_pending (s : State) (r : Reg) (v : Block) : (s.setReg r v).pending = s.pending := rfl
@[simp] theorem setReg_done (s : State) (r : Reg) (v : Block) : (s.setReg r v).done = s.done := rfl
@[simp] theorem setReg_err (s : State) (r : Reg) (v : Block) : (s.setReg r v).err = s.err := rfl
@[simp] theorem setReg_hstate (s : State) (r : Reg) (v : Block) : (s.setReg r v).hstate = s.hstate := rfl
@[simp] theorem setReg_errcode (s : State) (r : Reg) (v : Block) : (s.setReg r v).errcode = s.errcode := rfl
@[simp] theorem setReg_errcmd (s : State) (r : Reg) (v : Block) : (s.setReg r v).errcmd = s.errcmd := rfl
@[simp] theorem setReg_scratch (s : State) (r : Reg) (v : Block) : (s.setReg r v).scratch = s.scratch := rfl
@[simp] theorem setReg_resetAsserted (s : State) (r : Reg) (v : Block) : (s.setReg r v).resetAsserted = s.resetAsserted := rfl
@[simp] theorem setReg_schedule (s : State) (r : Reg) (v : Block) : (s.setReg r v).schedule = s.schedule := rfl
@[simp] theorem setReg_readData (s : State) (r : Reg) (v : Block) : (s.setReg r v).readData = s.readData := rfl
@[simp] theorem setReg_draws (s : State) (r : Reg) (v : Block) : (s.setReg r v).draws = s.draws := rfl
@[simp] theorem setReg_engineId (s : State) (r : Reg) (v : Block) : (s.setReg r v).engineId = s.engineId := rfl

@[simp] theorem setHState_regs (s : State) (x : HState) : (s.setHState x).regs = s.regs := rfl
@[simp] theorem setHState_ctrl (s : State) (x : HState) : (s.setHState x).ctrl = s.ctrl := rfl
@[simp] theorem setHState_pending (s : State) (x : HState) : (s.setHState x).pending = s.pending := rfl
@[simp] theorem setHState_done (s : State) (x : HState) : (s.setHState x).done = s.done := rfl
@[simp] theorem setHState_err (s : State) (x : HState) : (s.setHState x).err = s.err := rfl
@[simp] theorem setHState_hstate (s : State) (x : HState) : (s.setHState x).hstate = x := rfl
@[simp] theorem setHState_errcode (s : State) (x : HState) : (s.setHState x).errcode = s.errcode := rfl
@[simp] theorem setHState_errcmd (s : State) (x : HState) : (s.setHState x).errcmd = s.errcmd := rfl
@[simp] theorem setHState_scratch (s : State) (x : HState) : (s.setHState x).scratch = s.scratch := rfl
@[simp] theorem setHState_resetAsserted (s : State) (x : HState) : (s.setHState x).resetAsserted = s.resetAsserted := rfl
@[simp] theorem setHState_schedule (s : State) (x : HState) : (s.setHState x).schedule = s.schedule := rfl
@[simp] theorem setHState_readData (s : State) (x : HState) : (s.setHState x).readData = s.readData := rfl
@[simp] theorem setHState_draws (s : State) (x : HState) : (s.setHState x).draws = s.draws := rfl
@[simp] theorem setHState_engineId (s : State) (x : HState) : (s.setHState x).engineId = s.engineId := rfl

@[simp] theorem setChain_regs (s : State) (c : Chain) : (s.setChain c).regs = ((s.regs.set .h c.h).set .n c.n).set .sigma c.sigma := rfl
@[simp] theorem setChain_ctrl (s : State) (c : Chain) : (s.setChain c).ctrl = s.ctrl := rfl
@[simp] theorem setChain_pending (s : State) (c : Chain) : (s.setChain c).pending = s.pending := rfl
@[simp] theorem setChain_done (s : State) (c : Chain) : (s.setChain c).done = s.done := rfl
@[simp] theorem setChain_err (s : State) (c : Chain) : (s.setChain c).err = s.err := rfl
@[simp] theorem setChain_hstate (s : State) (c : Chain) : (s.setChain c).hstate = s.hstate := rfl
@[simp] theorem setChain_errcode (s : State) (c : Chain) : (s.setChain c).errcode = s.errcode := rfl
@[simp] theorem setChain_errcmd (s : State) (c : Chain) : (s.setChain c).errcmd = s.errcmd := rfl
@[simp] theorem setChain_scratch (s : State) (c : Chain) : (s.setChain c).scratch = s.scratch := rfl
@[simp] theorem setChain_resetAsserted (s : State) (c : Chain) : (s.setChain c).resetAsserted = s.resetAsserted := rfl
@[simp] theorem setChain_schedule (s : State) (c : Chain) : (s.setChain c).schedule = s.schedule := rfl
@[simp] theorem setChain_readData (s : State) (c : Chain) : (s.setChain c).readData = s.readData := rfl
@[simp] theorem setChain_draws (s : State) (c : Chain) : (s.setChain c).draws = s.draws := rfl
@[simp] theorem setChain_engineId (s : State) (c : Chain) : (s.setChain c).engineId = s.engineId := rfl

@[simp] theorem finishWith_regs (c : Scratch) (s : State) : (finishWith c s).regs = s.regs := rfl
@[simp] theorem finishWith_ctrl (c : Scratch) (s : State) : (finishWith c s).ctrl = s.ctrl := rfl
@[simp] theorem finishWith_pending (c : Scratch) (s : State) : (finishWith c s).pending = none := rfl
@[simp] theorem finishWith_done (c : Scratch) (s : State) : (finishWith c s).done = true := rfl
@[simp] theorem finishWith_err (c : Scratch) (s : State) : (finishWith c s).err = s.err := rfl
@[simp] theorem finishWith_hstate (c : Scratch) (s : State) : (finishWith c s).hstate = s.hstate := rfl
@[simp] theorem finishWith_errcode (c : Scratch) (s : State) : (finishWith c s).errcode = s.errcode := rfl
@[simp] theorem finishWith_errcmd (c : Scratch) (s : State) : (finishWith c s).errcmd = s.errcmd := rfl
@[simp] theorem finishWith_scratch (c : Scratch) (s : State) : (finishWith c s).scratch = c := rfl
@[simp] theorem finishWith_resetAsserted (c : Scratch) (s : State) : (finishWith c s).resetAsserted = s.resetAsserted := rfl
@[simp] theorem finishWith_schedule (c : Scratch) (s : State) : (finishWith c s).schedule = s.schedule := rfl
@[simp] theorem finishWith_readData (c : Scratch) (s : State) : (finishWith c s).readData = s.readData := rfl
@[simp] theorem finishWith_draws (c : Scratch) (s : State) : (finishWith c s).draws = s.draws := rfl
@[simp] theorem finishWith_engineId (c : Scratch) (s : State) : (finishWith c s).engineId = s.engineId := rfl

@[simp] theorem finish_regs (s : State) : (finish s).regs = s.regs := rfl
@[simp] theorem finish_ctrl (s : State) : (finish s).ctrl = s.ctrl := rfl
@[simp] theorem finish_pending (s : State) : (finish s).pending = none := rfl
@[simp] theorem finish_done (s : State) : (finish s).done = true := rfl
@[simp] theorem finish_err (s : State) : (finish s).err = s.err := rfl
@[simp] theorem finish_hstate (s : State) : (finish s).hstate = s.hstate := rfl
@[simp] theorem finish_errcode (s : State) : (finish s).errcode = s.errcode := rfl
@[simp] theorem finish_errcmd (s : State) : (finish s).errcmd = s.errcmd := rfl
@[simp] theorem finish_scratch (s : State) : (finish s).scratch = Config.anyScratch s.engineId s.draws := rfl
@[simp] theorem finish_resetAsserted (s : State) : (finish s).resetAsserted = s.resetAsserted := rfl
@[simp] theorem finish_schedule (s : State) : (finish s).schedule = s.schedule := rfl
@[simp] theorem finish_readData (s : State) : (finish s).readData = s.readData := rfl
@[simp] theorem finish_draws (s : State) : (finish s).draws = s.draws + 1 := rfl
@[simp] theorem finish_engineId (s : State) : (finish s).engineId = s.engineId := rfl

@[simp] theorem accept_regs (v : Word) (s : State) : (accept v s).regs = s.regs := rfl
@[simp] theorem accept_ctrl (v : Word) (s : State) : (accept v s).ctrl = s.ctrl := rfl
@[simp] theorem accept_pending (v : Word) (s : State) : (accept v s).pending = some v := rfl
@[simp] theorem accept_done (v : Word) (s : State) : (accept v s).done = false := rfl
@[simp] theorem accept_err (v : Word) (s : State) : (accept v s).err = s.err := rfl
@[simp] theorem accept_hstate (v : Word) (s : State) : (accept v s).hstate = s.hstate := rfl
@[simp] theorem accept_errcode (v : Word) (s : State) : (accept v s).errcode = s.errcode := rfl
@[simp] theorem accept_errcmd (v : Word) (s : State) : (accept v s).errcmd = s.errcmd := rfl
@[simp] theorem accept_scratch (v : Word) (s : State) : (accept v s).scratch = s.scratch := rfl
@[simp] theorem accept_resetAsserted (v : Word) (s : State) : (accept v s).resetAsserted = s.resetAsserted := rfl
@[simp] theorem accept_schedule (v : Word) (s : State) : (accept v s).schedule = s.schedule := rfl
@[simp] theorem accept_readData (v : Word) (s : State) : (accept v s).readData = s.readData := rfl
@[simp] theorem accept_draws (v : Word) (s : State) : (accept v s).draws = s.draws := rfl
@[simp] theorem accept_engineId (v : Word) (s : State) : (accept v s).engineId = s.engineId := rfl

@[simp] theorem clearError_regs (s : State) : (clearError s).regs = s.regs := rfl
@[simp] theorem clearError_ctrl (s : State) : (clearError s).ctrl = s.ctrl := rfl
@[simp] theorem clearError_pending (s : State) : (clearError s).pending = s.pending := rfl
@[simp] theorem clearError_done (s : State) : (clearError s).done = s.done := rfl
@[simp] theorem clearError_err (s : State) : (clearError s).err = false := rfl
@[simp] theorem clearError_hstate (s : State) : (clearError s).hstate = s.hstate := rfl
@[simp] theorem clearError_errcode (s : State) : (clearError s).errcode = .none := rfl
@[simp] theorem clearError_errcmd (s : State) : (clearError s).errcmd = 0 := rfl
@[simp] theorem clearError_scratch (s : State) : (clearError s).scratch = s.scratch := rfl
@[simp] theorem clearError_resetAsserted (s : State) : (clearError s).resetAsserted = s.resetAsserted := rfl
@[simp] theorem clearError_schedule (s : State) : (clearError s).schedule = s.schedule := rfl
@[simp] theorem clearError_readData (s : State) : (clearError s).readData = s.readData := rfl
@[simp] theorem clearError_draws (s : State) : (clearError s).draws = s.draws := rfl
@[simp] theorem clearError_engineId (s : State) : (clearError s).engineId = s.engineId := rfl

@[simp] theorem writeCtrl_regs (v : Word) (s : State) : (writeCtrl v s).regs = s.regs := rfl
@[simp] theorem writeCtrl_ctrl (v : Word) (s : State) : (writeCtrl v s).ctrl = v.setWidth 4 := rfl
@[simp] theorem writeCtrl_pending (v : Word) (s : State) : (writeCtrl v s).pending = s.pending := rfl
@[simp] theorem writeCtrl_done (v : Word) (s : State) : (writeCtrl v s).done = s.done := rfl
@[simp] theorem writeCtrl_err (v : Word) (s : State) : (writeCtrl v s).err = s.err := rfl
@[simp] theorem writeCtrl_hstate (v : Word) (s : State) : (writeCtrl v s).hstate = s.hstate := rfl
@[simp] theorem writeCtrl_errcode (v : Word) (s : State) : (writeCtrl v s).errcode = s.errcode := rfl
@[simp] theorem writeCtrl_errcmd (v : Word) (s : State) : (writeCtrl v s).errcmd = s.errcmd := rfl
@[simp] theorem writeCtrl_scratch (v : Word) (s : State) : (writeCtrl v s).scratch = s.scratch := rfl
@[simp] theorem writeCtrl_resetAsserted (v : Word) (s : State) : (writeCtrl v s).resetAsserted = s.resetAsserted := rfl
@[simp] theorem writeCtrl_schedule (v : Word) (s : State) : (writeCtrl v s).schedule = s.schedule := rfl
@[simp] theorem writeCtrl_readData (v : Word) (s : State) : (writeCtrl v s).readData = s.readData := rfl
@[simp] theorem writeCtrl_draws (v : Word) (s : State) : (writeCtrl v s).draws = s.draws := rfl
@[simp] theorem writeCtrl_engineId (v : Word) (s : State) : (writeCtrl v s).engineId = s.engineId := rfl

@[simp] theorem zeroRegs_regs (s : State) : (zeroRegs s).regs = ⟨0, 0, 0, 0, 0, 0, 0, 0⟩ := rfl
@[simp] theorem zeroRegs_ctrl (s : State) : (zeroRegs s).ctrl = s.ctrl := rfl
@[simp] theorem zeroRegs_pending (s : State) : (zeroRegs s).pending = s.pending := rfl
@[simp] theorem zeroRegs_done (s : State) : (zeroRegs s).done = s.done := rfl
@[simp] theorem zeroRegs_err (s : State) : (zeroRegs s).err = s.err := rfl
@[simp] theorem zeroRegs_hstate (s : State) : (zeroRegs s).hstate = s.hstate := rfl
@[simp] theorem zeroRegs_errcode (s : State) : (zeroRegs s).errcode = s.errcode := rfl
@[simp] theorem zeroRegs_errcmd (s : State) : (zeroRegs s).errcmd = s.errcmd := rfl
@[simp] theorem zeroRegs_scratch (s : State) : (zeroRegs s).scratch = s.scratch := rfl
@[simp] theorem zeroRegs_resetAsserted (s : State) : (zeroRegs s).resetAsserted = s.resetAsserted := rfl
@[simp] theorem zeroRegs_schedule (s : State) : (zeroRegs s).schedule = s.schedule := rfl
@[simp] theorem zeroRegs_readData (s : State) : (zeroRegs s).readData = s.readData := rfl
@[simp] theorem zeroRegs_draws (s : State) : (zeroRegs s).draws = s.draws := rfl
@[simp] theorem zeroRegs_engineId (s : State) : (zeroRegs s).engineId = s.engineId := rfl

@[simp] theorem assertReset_regs (s : State) : (assertReset s).regs = s.regs := rfl
@[simp] theorem assertReset_ctrl (s : State) : (assertReset s).ctrl = s.ctrl := rfl
@[simp] theorem assertReset_pending (s : State) : (assertReset s).pending = none := rfl
@[simp] theorem assertReset_done (s : State) : (assertReset s).done = s.done := rfl
@[simp] theorem assertReset_err (s : State) : (assertReset s).err = s.err := rfl
@[simp] theorem assertReset_hstate (s : State) : (assertReset s).hstate = s.hstate := rfl
@[simp] theorem assertReset_errcode (s : State) : (assertReset s).errcode = s.errcode := rfl
@[simp] theorem assertReset_errcmd (s : State) : (assertReset s).errcmd = s.errcmd := rfl
@[simp] theorem assertReset_scratch (s : State) : (assertReset s).scratch = s.scratch := rfl
@[simp] theorem assertReset_resetAsserted (s : State) : (assertReset s).resetAsserted = true := rfl
@[simp] theorem assertReset_schedule (s : State) : (assertReset s).schedule = s.schedule := rfl
@[simp] theorem assertReset_readData (s : State) : (assertReset s).readData = s.readData := rfl
@[simp] theorem assertReset_draws (s : State) : (assertReset s).draws = s.draws := rfl
@[simp] theorem assertReset_engineId (s : State) : (assertReset s).engineId = s.engineId := rfl

@[simp] theorem recordError_regs (c : ErrCode) (v : Word) (s : State) :
    (recordError c v s).regs = s.regs := by
  unfold recordError; split <;> rfl
@[simp] theorem recordError_ctrl (c : ErrCode) (v : Word) (s : State) :
    (recordError c v s).ctrl = s.ctrl := by
  unfold recordError; split <;> rfl
@[simp] theorem recordError_pending (c : ErrCode) (v : Word) (s : State) :
    (recordError c v s).pending = s.pending := by
  unfold recordError; split <;> rfl
@[simp] theorem recordError_done (c : ErrCode) (v : Word) (s : State) :
    (recordError c v s).done = s.done := by
  unfold recordError; split <;> rfl
@[simp] theorem recordError_hstate (c : ErrCode) (v : Word) (s : State) :
    (recordError c v s).hstate = s.hstate := by
  unfold recordError; split <;> rfl
@[simp] theorem recordError_scratch (c : ErrCode) (v : Word) (s : State) :
    (recordError c v s).scratch = s.scratch := by
  unfold recordError; split <;> rfl
@[simp] theorem recordError_resetAsserted (c : ErrCode) (v : Word) (s : State) :
    (recordError c v s).resetAsserted = s.resetAsserted := by
  unfold recordError; split <;> rfl
@[simp] theorem recordError_schedule (c : ErrCode) (v : Word) (s : State) :
    (recordError c v s).schedule = s.schedule := by
  unfold recordError; split <;> rfl
@[simp] theorem recordError_readData (c : ErrCode) (v : Word) (s : State) :
    (recordError c v s).readData = s.readData := by
  unfold recordError; split <;> rfl
@[simp] theorem recordError_draws (c : ErrCode) (v : Word) (s : State) :
    (recordError c v s).draws = s.draws := by
  unfold recordError; split <;> rfl
@[simp] theorem recordError_engineId (c : ErrCode) (v : Word) (s : State) :
    (recordError c v s).engineId = s.engineId := by
  unfold recordError; split <;> rfl

theorem recordError_kept (c : ErrCode) (v : Word) (s : State) (h : s.err = true) :
    recordError c v s = s := by simp [recordError, h]

theorem recordError_first (c : ErrCode) (v : Word) (s : State) (h : s.err = false) :
    recordError c v s = { s with err := true, errcode := c, errcmd := v } := by
  simp [recordError, h]

@[simp] theorem recordError_err (c : ErrCode) (v : Word) (s : State) :
    (recordError c v s).err = true := by
  unfold recordError; split <;> simp_all

@[simp] theorem reject_regs (c : ErrCode) (v : Word) (s : State) :
    (reject c v s).regs = s.regs := by simp [reject]
@[simp] theorem reject_ctrl (c : ErrCode) (v : Word) (s : State) :
    (reject c v s).ctrl = s.ctrl := by simp [reject]
@[simp] theorem reject_pending (c : ErrCode) (v : Word) (s : State) :
    (reject c v s).pending = none := rfl
@[simp] theorem reject_done (c : ErrCode) (v : Word) (s : State) :
    (reject c v s).done = true := rfl
@[simp] theorem reject_err (c : ErrCode) (v : Word) (s : State) :
    (reject c v s).err = true := by simp [reject]
@[simp] theorem reject_hstate (c : ErrCode) (v : Word) (s : State) :
    (reject c v s).hstate = s.hstate := by simp [reject]
@[simp] theorem reject_errcode (c : ErrCode) (v : Word) (s : State) :
    (reject c v s).errcode = (recordError c v s).errcode := rfl
@[simp] theorem reject_errcmd (c : ErrCode) (v : Word) (s : State) :
    (reject c v s).errcmd = (recordError c v s).errcmd := rfl
@[simp] theorem reject_scratch (c : ErrCode) (v : Word) (s : State) :
    (reject c v s).scratch = s.scratch := by simp [reject]
@[simp] theorem reject_resetAsserted (c : ErrCode) (v : Word) (s : State) :
    (reject c v s).resetAsserted = s.resetAsserted := by simp [reject]
@[simp] theorem reject_schedule (c : ErrCode) (v : Word) (s : State) :
    (reject c v s).schedule = s.schedule := by simp [reject]
@[simp] theorem reject_readData (c : ErrCode) (v : Word) (s : State) :
    (reject c v s).readData = s.readData := by simp [reject]
@[simp] theorem reject_draws (c : ErrCode) (v : Word) (s : State) :
    (reject c v s).draws = s.draws := by simp [reject]
@[simp] theorem reject_engineId (c : ErrCode) (v : Word) (s : State) :
    (reject c v s).engineId = s.engineId := by simp [reject]

@[simp] theorem get_set (f : RegFile) (r q : Reg) (v : Block) :
    (f.set r v).get q = if q = r then v else f.get q := by
  cases r <;> cases q <;> rfl

@[simp] theorem reg_setReg (s : State) (r q : Reg) (v : Block) :
    (s.setReg r v).reg q = if q = r then v else s.reg q := get_set s.regs r q v

@[simp] theorem reg_setChain (s : State) (c : Chain) (q : Reg) :
    (s.setChain c).reg q =
      if q = .sigma then c.sigma else if q = .n then c.n else if q = .h then c.h else s.reg q := by
  simp [State.setChain]

@[simp] theorem reg_setHState (s : State) (x : HState) (q : Reg) :
    (s.setHState x).reg q = s.reg q := rfl

@[simp] theorem reg_finish (s : State) (q : Reg) : (finish s).reg q = s.reg q := rfl

@[simp] theorem reg_finishWith (c : Scratch) (s : State) (q : Reg) :
    (finishWith c s).reg q = s.reg q := rfl

@[simp] theorem reg_zeroRegs (s : State) (q : Reg) : (zeroRegs s).reg q = 0 := by
  cases q <;> rfl

@[simp] theorem reg_reject (c : ErrCode) (v : Word) (s : State) (q : Reg) :
    (reject c v s).reg q = s.reg q := by simp [State.reg]

/-- A register file is its eight registers. -/
theorem regs_ext (f g : RegFile) (h : ∀ r, f.get r = g.get r) : f = g := by
  cases f; cases g
  simp only [RegFile.mk.injEq]
  exact ⟨h .h, h .n, h .sigma, h .m, h .iv, h .key, h .t0, h .t1⟩

end Sys2Proof.Machine
end

