-- ==== Sys2Proof/Laws/Ops.lean ====
section
/-! SUPPORT. For each shared operation of the machine, once, everything it can do. -/

namespace Sys2Proof.Machine

/-- A completed command that changed only the registers of `rs` and HSTATE: its frame. -/
theorem finish_frame (rs : List Reg) (s u : State)
    (hregs : ∀ r, r ∉ rs → u.reg r = s.reg r) (hctrl : u.ctrl = s.ctrl) (herr : u.err = s.err)
    (hcode : u.errcode = s.errcode) (hcmd : u.errcmd = s.errcmd)
    (hreset : u.resetAsserted = s.resetAsserted) (hsched : u.schedule = s.schedule)
    (hread : u.readData = s.readData) (hid : u.engineId = s.engineId) :
    CompletedFrame rs u.hstate s (finish u) :=
  ⟨hregs, hctrl, herr, hcode, hcmd, rfl, rfl, rfl, hreset, hsched, hread, hid⟩

/-- Writing one register completes with the value there and the frame of that register. -/
theorem writeResult_next (rd : Reg) (v : Block) (s : State) :
    ∃ t, writeResult rd v s = .next t ∧ t.reg rd = v ∧ CompletedFrame [rd] s.hstate s t := by
  refine ⟨_, rfl, by simp, finish_frame [rd] s (s.setReg rd v) ?_ rfl rfl rfl rfl rfl rfl rfl rfl⟩
  intro r hr
  simp_all

/-- Forms `da` and `dai`. -/
theorem unary_next (f : Block → Block) (rd ra : Reg) (s : State) :
    ∃ t, unary f rd ra s = .next t ∧ t.reg rd = f (s.reg ra) ∧
      CompletedFrame [rd] s.hstate s t :=
  writeResult_next rd _ s

/-- Form `dab`. -/
theorem binary_next (f : Block → Block → Block) (rd ra rb : Reg) (s : State) :
    ∃ t, binary f rd ra rb s = .next t ∧ t.reg rd = f (s.reg ra) (s.reg rb) ∧
      CompletedFrame [rd] s.hstate s t :=
  writeResult_next rd _ s

/-- A rejection is what R242 and R244 say. -/
theorem reject_rejectedWith (code : ErrCode) (v : Word) (s : State) :
    RejectedWith code v s (reject code v s) := by
  refine ⟨rfl, rfl, ?_, by simp, by simp, by simp, by simp, by simp, by simp, by simp, by simp,
    by simp⟩
  cases h : s.err
  · simp [reject, recordError, h]
  · simp [reject, recordError, h]

theorem raise_next (code : ErrCode) (i : Instr) (s : State) :
    ∃ t, raise code i s = .next t ∧ RejectedWith code (encode i) s t :=
  ⟨_, rfl, reject_rejectedWith code (encode i) s⟩

theorem requireHState_ok (x : HState) (i : Instr) (s : State)
    (go : Host.Outcome State Fault Refusal) (h : s.hstate = x) :
    requireHState x i s go = go := by simp [requireHState, h]

theorem requireHState_not (x : HState) (i : Instr) (s : State)
    (go : Host.Outcome State Fault Refusal) (h : s.hstate ≠ x) :
    requireHState x i s go = raise .sequence i s := by simp [requireHState, h]

theorem requireImmAtMost_ok (most : Nat) (imm : BitVec 10) (i : Instr) (s : State)
    (go : Host.Outcome State Fault Refusal) (h : imm.toNat ≤ most) :
    requireImmAtMost most imm i s go = go := by simp [requireImmAtMost, immValue, h]

theorem requireImmAtMost_not (most : Nat) (imm : BitVec 10) (i : Instr) (s : State)
    (go : Host.Outcome State Fault Refusal) (h : most < imm.toNat) :
    requireImmAtMost most imm i s go = raise .immRange i s := by
  simp [requireImmAtMost, immValue, Nat.not_le.mpr h]

/-- Present (60_exceptions.md R240): one of its three ends. -/
theorem present_cases (v : Word) (s : State) :
    (s.busy = true ∧ present v s = recordError .cmdBusy v s) ∨
    (s.busy = false ∧ check v s.hstate = .none ∧ present v s = accept v s) ∨
    (s.busy = false ∧ check v s.hstate ≠ .none ∧
      present v s = reject (check v s.hstate) v s) := by
  unfold present
  cases hb : s.busy <;> by_cases hc : check v s.hstate = .none <;> simp [hc]

/-- A host access: the bus error of R73, a read, or a write. -/
theorem hostAccess_cases (a : Access) (s : State) :
    (aligned a = false ∧ hostAccess a s = .fault .busError) ∨
    (aligned a = true ∧ a.kind = .read ∧ hostAccess a s = .next (hostRead a.off s)) ∨
    (∃ v, aligned a = true ∧ a.kind = .write v ∧
      hostAccess a s = .next (hostWrite a.off v s)) := by
  unfold hostAccess
  cases ha : aligned a
  · simp
  · cases hk : a.kind with
    | read => simp
    | write v => exact .inr (.inr ⟨v, rfl, rfl, by simp⟩)

/-- A host read changes what the host holds and, on a free draw, the draw counter (20_memory.md R75). -/
theorem hostRead_cases (off : Offset) (s : State) :
    (∃ w, windowRead s off = some w ∧ hostRead off s = { s with readData := w }) ∨
    (windowRead s off = none ∧
      hostRead off s = { s with readData := Config.anyWord s.engineId s.draws, draws := s.draws + 1 }) := by
  unfold hostRead
  cases h : windowRead s off with
  | none => exact .inr ⟨rfl, rfl⟩
  | some w => exact .inl ⟨w, rfl, rfl⟩

/-- A host write: to CMD, to STATUS, dropped and recorded, to CTRL, to a block register word, or
ignored (20_memory.md R84). -/
theorem hostWrite_cases (off : Offset) (v : Word) (s : State) :
    (off = 0x008 ∧ hostWrite off v s = present v s) ∨
    (off = 0x00C ∧ hostWrite off v s = writeStatus v s) ∨
    ((off = 0x004 ∨ inBlocks off = true) ∧ s.busy = true ∧
      hostWrite off v s = recordError .writeBusy (off.setWidth 32) s) ∨
    (off = 0x004 ∧ s.busy = false ∧ hostWrite off v s = writeCtrl v s) ∨
    (inBlocks off = true ∧ s.busy = false ∧ hostWrite off v s =
      s.setReg (regAt off) (setBusWord (s.reg (regAt off)) (wordAt off) v)) ∨
    (off ≠ 0x008 ∧ off ≠ 0x00C ∧ off ≠ 0x004 ∧ inBlocks off = false ∧ hostWrite off v s = s) := by
  unfold hostWrite
  by_cases h8 : off = 0x008
  · simp [h8]
  by_cases hC : off = 0x00C
  · simp [hC]
  by_cases h4 : off = 0x004
  · cases hb : s.busy <;> simp [h4]
  · simp only [BitVec.ofNat_eq_ofNat] at h8 hC h4
    cases hi : inBlocks off <;> cases hb : s.busy <;> simp [h8, hC, h4]

/-- A step makes the next move of the schedule, or the sequencer's when there is none. -/
theorem step_cases (s : State) :
    (s.schedule = [] ∧ step s = makeMove .sequencer s) ∨
    (∃ mv rest, s.schedule = mv :: rest ∧ step s = makeMove mv { s with schedule := rest }) := by
  unfold step advance
  cases h : s.schedule with
  | nil => exact .inl ⟨rfl, rfl⟩
  | cons mv rest => exact .inr ⟨mv, rest, rfl, rfl⟩

end Sys2Proof.Machine
end

