-- ==== Sys2Proof/Laws/Commands.lean ====
section
/-! SUPPORT. For each command with a range or a sequencing test, once, what it is when the test holds and
when it does not; and the frames of the commands that write the chain state. -/

namespace Sys2Proof.Machine

/-- A completed command that changed only the registers of `rs` and set HSTATE to `x`: its frame. -/
theorem completed_of_update (rs : List Reg) (x : HState) (s u : State)
    (hregs : ∀ r, r ∉ rs → u.reg r = s.reg r) (h : u = { s with regs := u.regs, hstate := x }) :
    CompletedFrame rs x s (finish u) := by
  have hx : u.hstate = x := by rw [h]
  have key := finish_frame rs s u hregs (by rw [h]) (by rw [h]) (by rw [h]) (by rw [h]) (by rw [h])
    (by rw [h]) (by rw [h]) (by rw [h])
  rwa [hx] at key

/-- The frame of a command that writes the chain state and HSTATE. -/
theorem chain_hstate_frame (c : Chain) (x : HState) (s : State) :
    CompletedFrame [.h, .n, .sigma] x s (finish ((s.setChain c).setHState x)) := by
  refine completed_of_update _ x s _ ?_ rfl
  intro r hr
  simp at hr
  simp [hr]

/-- The frame of a command that writes the chain state and leaves HSTATE. -/
theorem chain_frame (c : Chain) (s : State) :
    CompletedFrame [.h, .n, .sigma] s.hstate s (finish (s.setChain c)) := by
  refine completed_of_update _ s.hstate s _ ?_ rfl
  intro r hr
  simp at hr
  simp [hr]

theorem execLdc_ok (rd : Reg) (imm : BitVec 10) (s : State) (h1 : 1 ≤ imm.toNat)
    (h12 : imm.toNat ≤ 12) : execLdc rd imm s = writeResult rd (romC imm.toNat) s := by
  unfold execLdc
  rw [if_pos (show 1 ≤ immValue imm from h1), requireImmAtMost_ok _ _ _ _ _ h12]
  rfl

theorem execLdc_not (rd : Reg) (imm : BitVec 10) (s : State)
    (h : ¬ (1 ≤ imm.toNat ∧ imm.toNat ≤ 12)) :
    execLdc rd imm s = raise .immRange (.ldc rd imm) s := by
  unfold execLdc
  by_cases h1 : 1 ≤ immValue imm
  · have h2 : 12 < imm.toNat := Nat.not_le.mp fun h12 => h ⟨h1, h12⟩
    rw [if_pos h1, requireImmAtMost_not _ _ _ _ _ h2]
  · rw [if_neg h1]

theorem execPad_ok (rd ra : Reg) (imm : BitVec 10) (s : State) (h : imm.toNat ≤ 512) :
    execPad rd ra imm s = unary (fun a => padBlock a imm.toNat) rd ra s :=
  requireImmAtMost_ok _ _ _ _ _ h

theorem execPad_not (rd ra : Reg) (imm : BitVec 10) (s : State) (h : 512 < imm.toNat) :
    execPad rd ra imm s = raise .immRange (.pad rd ra imm) s :=
  requireImmAtMost_not _ _ _ _ _ h

theorem execHblk_ok (s : State) (h : s.hstate = .accum) :
    execHblk s = .next (finish (s.setChain (chainBlock s.chain (s.reg .m)))) :=
  requireHState_ok _ _ _ _ h

theorem execHblk_not (s : State) (h : s.hstate ≠ .accum) : execHblk s = raise .sequence .hblk s :=
  requireHState_not _ _ _ _ h

theorem execHfin_ok (imm : BitVec 10) (s : State) (hi : imm.toNat ≤ 512) (h : s.hstate = .accum) :
    execHfin imm s = .next (finish
      ((s.setChain (chainFinal s.chain (s.reg .m) imm.toNat)).setHState .done)) := by
  unfold execHfin
  rw [requireImmAtMost_ok _ _ _ _ _ hi, requireHState_ok _ _ _ _ h]
  rfl

theorem execHfin_range (imm : BitVec 10) (s : State) (h : 512 < imm.toNat) :
    execHfin imm s = raise .immRange (.hfin imm) s :=
  requireImmAtMost_not _ _ _ _ _ h

theorem execHfin_not (imm : BitVec 10) (s : State) (hi : imm.toNat ≤ 512) (h : s.hstate ≠ .accum) :
    execHfin imm s = raise .sequence (.hfin imm) s := by
  unfold execHfin
  rw [requireImmAtMost_ok _ _ _ _ _ hi, requireHState_not _ _ _ _ h]

theorem execKpad_ok (align : Bool) (klen : BitVec 7) (s : State)
    (h : 1 ≤ klen.toNat ∧ klen.toNat ≤ 64) :
    execKpad align klen s = unary (keyPad align klen.toNat) .key .key s := by
  unfold execKpad
  rw [if_pos (show 1 ≤ klenValue klen ∧ klenValue klen ≤ 64 from h)]
  rfl

theorem execKpad_not (align : Bool) (klen : BitVec 7) (s : State)
    (h : ¬ (1 ≤ klen.toNat ∧ klen.toNat ≤ 64)) :
    execKpad align klen s = raise .keyLen (.kpad align klen) s := by
  unfold execKpad
  rw [if_neg (show ¬ (1 ≤ klenValue klen ∧ klenValue klen ≤ 64) from h)]

theorem execKhash_ok (s : State) (h : s.hstate = .done) :
    execKhash s = writeResult .key (s.reg .h) s :=
  requireHState_ok _ _ _ _ h

theorem execKhash_not (s : State) (h : s.hstate ≠ .done) : execKhash s = raise .sequence .khash s :=
  requireHState_not _ _ _ _ h

theorem execHouter_ok (s : State) (h : s.hstate = .done) :
    execHouter s = .next (finish
      ((((s.setChain (outerHash s.bndpad (s.reg .key) (s.reg .h))).setReg .key 0).setReg .m
        0).setHState .done)) :=
  requireHState_ok _ _ _ _ h

theorem execHouter_not (s : State) (h : s.hstate ≠ .done) :
    execHouter s = raise .sequence .houter s :=
  requireHState_not _ _ _ _ h

end Sys2Proof.Machine
end

