-- ==== Sys2Proof/Laws/PerInstr.lean ====
section
/-! SUPPORT. A fact about every command as syntax, one lemma per constructor: its word has RES zero
(30_encoding.md R90, R92) and an opcode of the map of R94. -/

namespace Sys2Proof.Laws.FormatFields

/-- The word of `i` has RES = 0 and an opcode that is not reserved. -/
def Statement (i : Instr) : Prop :=
  (Fields.ofWord (encode i)).res = 0 ∧ (formOf (Fields.ofWord (encode i)).op).isSome = true

theorem nop : Statement .nop := by simp [Statement, encode, fieldsOf, formOf]
theorem mov (rd ra : Reg) : Statement (.mov rd ra) := by simp [Statement, encode, fieldsOf, formOf]
theorem clr (rd : Reg) : Statement (.clr rd) := by simp [Statement, encode, fieldsOf, formOf]
theorem xor (rd ra rb : Reg) : Statement (.xor rd ra rb) := by
  simp [Statement, encode, fieldsOf, formOf]
theorem add (rd ra rb : Reg) : Statement (.add rd ra rb) := by
  simp [Statement, encode, fieldsOf, formOf]
theorem addi (rd ra : Reg) (imm : BitVec 10) : Statement (.addi rd ra imm) := by
  simp [Statement, encode, fieldsOf, formOf]
theorem sbox (rd ra : Reg) : Statement (.sbox rd ra) := by simp [Statement, encode, fieldsOf, formOf]
theorem perm (rd ra : Reg) : Statement (.perm rd ra) := by simp [Statement, encode, fieldsOf, formOf]
theorem lin (rd ra : Reg) : Statement (.lin rd ra) := by simp [Statement, encode, fieldsOf, formOf]
theorem lps (rd ra : Reg) : Statement (.lps rd ra) := by simp [Statement, encode, fieldsOf, formOf]
theorem ldc (rd : Reg) (imm : BitVec 10) : Statement (.ldc rd imm) := by
  simp [Statement, encode, fieldsOf, formOf]
theorem e (rd ra rb : Reg) : Statement (.e rd ra rb) := by simp [Statement, encode, fieldsOf, formOf]
theorem g (rd ra rb : Reg) : Statement (.g rd ra rb) := by simp [Statement, encode, fieldsOf, formOf]
theorem pad (rd ra : Reg) (imm : BitVec 10) : Statement (.pad rd ra imm) := by
  simp [Statement, encode, fieldsOf, formOf]
theorem hinit : Statement .hinit := by simp [Statement, encode, fieldsOf, formOf]
theorem hblk : Statement .hblk := by simp [Statement, encode, fieldsOf, formOf]
theorem hfin (imm : BitVec 10) : Statement (.hfin imm) := by
  simp [Statement, encode, fieldsOf, formOf]
theorem hresume : Statement .hresume := by simp [Statement, encode, fieldsOf, formOf]
theorem kpad (align : Bool) (klen : BitVec 7) : Statement (.kpad align klen) := by
  simp [Statement, encode, fieldsOf, formOf]
theorem khash : Statement .khash := by simp [Statement, encode, fieldsOf, formOf]
theorem hipad : Statement .hipad := by simp [Statement, encode, fieldsOf, formOf]
theorem houter : Statement .houter := by simp [Statement, encode, fieldsOf, formOf]
theorem wipe : Statement .wipe := by simp [Statement, encode, fieldsOf, formOf]

end Sys2Proof.Laws.FormatFields
end

