-- ==== Sys2Proof/Laws/Platform.lean ====
section
/-! SUPPORT. What the shared operations of a platform can do (60_exceptions.md R255), and that no move
changes an engine's number. -/

namespace Sys2Proof.Machine

/-- A move of the engine at `k`: no engine there, or exactly the outcome of its move alone. -/
theorem moveEngine_cases (k : Nat) (mv : Move) (p : Platform) :
    (p.engines[k]? = none ∧ moveEngine k mv p = .next p) ∨
    (∃ e t, p.engines[k]? = some e ∧ makeMove mv e.state = .next t ∧ moveEngine k mv p =
      .next { p with engines := p.engines.set k { e with state := t } }) ∨
    (∃ e f, p.engines[k]? = some e ∧ makeMove mv e.state = .fault f ∧
      moveEngine k mv p = .fault f) ∨
    (∃ e r, p.engines[k]? = some e ∧ makeMove mv e.state = .refused r ∧
      moveEngine k mv p = .refused r) := by
  unfold moveEngine
  cases he : p.engines[k]? with
  | none => exact .inl ⟨rfl, rfl⟩
  | some e =>
    cases hm : makeMove mv e.state with
    | next t => exact .inr (.inl ⟨e, t, rfl, hm, by simp only [hm]⟩)
    | fault f => exact .inr (.inr (.inl ⟨e, f, rfl, hm, by simp only [hm]⟩))
    | refused r => exact .inr (.inr (.inr ⟨e, r, rfl, hm, by simp only [hm]⟩))

/-- An address is in the window at `page` exactly when it has an offset there. -/
theorem windowOffset_eq_none (page addr : Nat) :
    windowOffset page addr = none ↔
      ¬ (Config.base page ≤ addr ∧ addr < Config.base page + 0x1000) := by
  unfold windowOffset
  split <;> simp_all

/-- Every offset of a window is that of BASE plus it. -/
theorem windowOffset_base (page : Nat) (off : Offset) :
    windowOffset page (Config.base page + off.toNat) = some off := by
  unfold windowOffset
  have := off.isLt
  rw [if_pos ⟨Nat.le_add_right _ _, by omega⟩, Nat.add_sub_cancel_left]
  simp

/-- An address lies in one page's window only. -/
theorem page_unique (p q addr : Nat)
    (hp : Config.base p ≤ addr ∧ addr < Config.base p + 0x1000)
    (hq : Config.base q ≤ addr ∧ addr < Config.base q + 0x1000) : p = q := by
  unfold Config.base at hp hq
  omega

/-- Where an access is routed to an engine, its window holds the address, and the move is the access at the
address's offset. -/
theorem routeFrom_some (kind : AccessKind) (addr width k j : Nat) (mv : Move) (l : List Engine)
    (h : routeFrom kind addr width k l = some (j, mv)) :
    ∃ i e off, j = k + i ∧ l[i]? = some e ∧ windowOffset e.page addr = some off ∧
      mv = .host ⟨kind, off, width⟩ := by
  induction l generalizing k with
  | nil => cases h
  | cons e rest ih =>
    unfold routeFrom moveAtAddress at h
    cases hw : windowOffset e.page addr with
    | some off =>
      simp only [hw, Option.map_some, Option.some.injEq, Prod.mk.injEq] at h
      exact ⟨0, e, off, h.1.symm, rfl, hw, h.2.symm⟩
    | none =>
      simp only [hw, Option.map_none] at h
      obtain ⟨i, e', off, hj, he, ho, hm⟩ := ih (k + 1) h
      exact ⟨i + 1, e', off, by omega, he, ho, hm⟩

/-- An access is routed to no engine exactly when no window holds its address. -/
theorem routeFrom_none (kind : AccessKind) (addr width k : Nat) (l : List Engine) :
    routeFrom kind addr width k l = none ↔
      ∀ (i : Nat) (e : Engine), l[i]? = some e → windowOffset e.page addr = none := by
  induction l generalizing k with
  | nil => exact ⟨fun _ i e he => (by cases he), fun _ => rfl⟩
  | cons e rest ih =>
    unfold routeFrom moveAtAddress
    cases hw : windowOffset e.page addr with
    | some off =>
      simp only [Option.map_some, reduceCtorEq, false_iff]
      intro h
      have := h 0 e rfl
      rw [hw] at this
      cases this
    | none =>
      simp only [Option.map_none, ih (k + 1)]
      constructor
      · intro h i e' he
        cases i with
        | zero => cases he; exact hw
        | succ i => exact h i e' he
      · exact fun h i e' he => h (i + 1) e' he

/-- Raising an error keeps the engine's number. -/
theorem raise_engineId (c : ErrCode) (i : Instr) (s t : State) (h : raise c i s = .next t) :
    t.engineId = s.engineId := by
  obtain ⟨u, hu, f⟩ := raise_next c i s
  rw [hu] at h
  cases h
  exact f.engineId

theorem requireHState_engineId (x : HState) (i : Instr) (s t : State)
    (go : Host.Outcome State Fault Refusal) (hgo : go = .next t → t.engineId = s.engineId)
    (h : requireHState x i s go = .next t) : t.engineId = s.engineId := by
  unfold requireHState at h
  split at h
  · exact hgo h
  · exact raise_engineId _ _ _ _ h

theorem requireImmAtMost_engineId (most : Nat) (imm : BitVec 10) (i : Instr) (s t : State)
    (go : Host.Outcome State Fault Refusal) (hgo : go = .next t → t.engineId = s.engineId)
    (h : requireImmAtMost most imm i s go = .next t) : t.engineId = s.engineId := by
  unfold requireImmAtMost at h
  split at h
  · exact hgo h
  · exact raise_engineId _ _ _ _ h

theorem writeResult_engineId (rd : Reg) (v : Block) (s t : State)
    (h : writeResult rd v s = .next t) : t.engineId = s.engineId := by
  obtain ⟨u, hu, _, f⟩ := writeResult_next rd v s
  rw [hu] at h
  cases h
  exact f.engineId

/-- A completed command keeps the engine's number if its update does. -/
theorem finish_next_engineId (u s t : State) (hu : u.engineId = s.engineId)
    (h : Host.Outcome.next (φ := Fault) (ρ := Refusal) (finish u) = .next t) :
    t.engineId = s.engineId := by
  injection h with h
  rw [← h, finish_engineId, hu]

/-- No command changes the engine's number. -/
theorem exec_engineId (i : Instr) (s t : State) (h : exec i s = .next t) :
    t.engineId = s.engineId := by
  cases i <;> simp only [exec] at h
  case nop => exact finish_next_engineId s s t rfl h
  case mov => exact writeResult_engineId _ _ _ _ h
  case clr => exact writeResult_engineId _ _ _ _ h
  case xor => exact writeResult_engineId _ _ _ _ h
  case add => exact writeResult_engineId _ _ _ _ h
  case addi => exact writeResult_engineId _ _ _ _ h
  case sbox => exact writeResult_engineId _ _ _ _ h
  case perm => exact writeResult_engineId _ _ _ _ h
  case lin => exact writeResult_engineId _ _ _ _ h
  case lps => exact writeResult_engineId _ _ _ _ h
  case ldc rd imm =>
    unfold execLdc at h
    split at h
    · exact requireImmAtMost_engineId _ _ _ _ _ _ (writeResult_engineId _ _ _ _) h
    · exact raise_engineId _ _ _ _ h
  case e => exact writeResult_engineId _ _ _ _ h
  case g => exact writeResult_engineId _ _ _ _ h
  case pad =>
    unfold execPad unary at h
    exact requireImmAtMost_engineId _ _ _ _ _ _ (writeResult_engineId _ _ _ _) h
  case hinit =>
    unfold execHinit at h
    exact finish_next_engineId _ s t (by simp) h
  case hblk =>
    by_cases hs : s.hstate = .accum
    · rw [execHblk_ok s hs] at h
      exact finish_next_engineId _ s t (setChain_engineId s _) h
    · rw [execHblk_not s hs] at h
      exact raise_engineId _ _ _ _ h
  case hfin imm =>
    by_cases hi : imm.toNat ≤ 512
    · by_cases hs : s.hstate = .accum
      · rw [execHfin_ok imm s hi hs] at h
        exact finish_next_engineId _ s t
          ((setHState_engineId _ _).trans (setChain_engineId s _)) h
      · rw [execHfin_not imm s hi hs] at h
        exact raise_engineId _ _ _ _ h
    · rw [execHfin_range imm s (Nat.not_le.mp hi)] at h
      exact raise_engineId _ _ _ _ h
  case hresume =>
    unfold execHresume at h
    exact finish_next_engineId _ s t (by simp) h
  case kpad =>
    unfold execKpad at h
    split at h
    · exact writeResult_engineId _ _ _ _ h
    · exact raise_engineId _ _ _ _ h
  case khash =>
    unfold execKhash unary at h
    exact requireHState_engineId _ _ _ _ _ (writeResult_engineId _ _ _ _) h
  case hipad =>
    unfold execHipad at h
    exact finish_next_engineId _ s t (by simp) h
  case houter =>
    unfold execHouter at h
    exact requireHState_engineId _ _ _ _ _ (finish_next_engineId _ s t (by simp)) h
  case wipe =>
    unfold execWipe at h
    injection h with h
    simp [← h]

/-- No host access changes the engine's number. -/
theorem hostAccess_engineId (a : Access) (s t : State) (h : hostAccess a s = .next t) :
    t.engineId = s.engineId := by
  rcases hostAccess_cases a s with ⟨_, e⟩ | ⟨_, _, e⟩ | ⟨v, _, _, e⟩ <;> rw [e] at h <;> cases h
  · rcases hostRead_cases a.off s with ⟨w, _, e⟩ | ⟨_, e⟩ <;> rw [e]
  · rcases hostWrite_cases a.off v s with ⟨_, e⟩ | ⟨_, e⟩ | ⟨_, _, e⟩ | ⟨_, _, e⟩ |
      ⟨_, _, e⟩ | ⟨_, _, _, _, e⟩ <;> rw [e]
    · rcases present_cases v s with ⟨_, e⟩ | ⟨_, _, e⟩ | ⟨_, _, e⟩ <;> rw [e] <;> simp
    · unfold writeStatus
      cases v.getLsbD 1 <;> cases v.getLsbD 2 <;> rfl
    · simp
    · rfl
    · rfl

/-- No move changes the engine's number. -/
theorem makeMove_engineId (mv : Move) (s t : State) (h : makeMove mv s = .next t) :
    t.engineId = s.engineId := by
  cases mv with
  | reset b =>
    simp only [makeMove, Host.Outcome.next.injEq] at h
    rw [← h]
    unfold setResetInput
    split
    · rfl
    · split <;> rfl
  | sequencer =>
    simp only [makeMove] at h
    split at h
    · cases h
    · unfold complete runWord at h
      split at h
      · split at h
        · cases h; simp
        · exact exec_engineId _ s t h
      · cases h; rfl
  | host a =>
    simp only [makeMove] at h
    split at h
    · cases h
    · exact hostAccess_engineId a s t h

end Sys2Proof.Machine
end

