-- ==== Sys2Proof/Tests/Slice0.lean ====
section
/-! SUPPORT. Tests on fixed values of the spec, and a witness for the hypotheses of every obligation. The
expected values are those of 95_test_vectors.md; each test names its section there. -/

namespace Sys2Proof.Tests

set_option Elab.async false

open Sys2Proof Sys2Proof.Machine

/-- The state an outcome goes on with. -/
def nextOf (o : Host.Outcome State Fault Refusal) : Option State :=
  match o with
  | .next t => some t
  | .fault _ => none
  | .refused _ => none

/-- Register `r` after command `i`. -/
def regAfter (i : Instr) (s : State) (r : Reg) : Option Block :=
  (nextOf (exec i s)).map fun t => t.reg r

/-- STATUS and ERRCMD after the host writes `v` to CMD. -/
def statusAfter (v : Word) (s : State) : Option (Word × Word) :=
  (nextOf (hostAccess ⟨.write v, 0x008, 32⟩ s)).map fun t => (statusWord t, t.errcmd)

/-- The word the host reads at `off`. -/
def readAt (off : Offset) (s : State) : Option Word :=
  (nextOf (hostAccess ⟨.read, off, 32⟩ s)).map fun t => t.readData

/-- The reset state with one register set. -/
def withReg (r : Reg) (v : Block) : State := State.reset.setReg r v

/-- The reset state in the HSTATE `x`. -/
def inHState (x : HState) : State := State.reset.setHState x

/-- A state with NOP pending. -/
def busyNop : State := accept 0x00000000 State.reset

/-- byte k = k (section 3.3). -/
def ramp : Block :=
  0x000102030405060708090a0b0c0d0e0f101112131415161718191a1b1c1d1e1f202122232425262728292a2b2c2d2e2f303132333435363738393a3b3c3d3e3f

/-- FF^64. -/
def ones : Block := fill 0xFF

/-! ### Well-formed and ill-formed commands (30_encoding.md R93) -/

theorem test_illFormed_ldc_0 : Instr.wellFormed (.ldc .t0 0) = false := by decide
theorem test_illFormed_ldc_13 : Instr.wellFormed (.ldc .t0 13) = false := by decide
theorem test_illFormed_pad_513 : Instr.wellFormed (.pad .t0 .m 513) = false := by decide
theorem test_illFormed_hfin_513 : Instr.wellFormed (.hfin 513) = false := by decide
theorem test_illFormed_kpad_0 : Instr.wellFormed (.kpad false 0) = false := by decide
theorem test_illFormed_kpad_65 : Instr.wellFormed (.kpad true 65) = false := by decide
theorem test_wellFormed_bounds :
    ([.ldc .t0 1, .ldc .t0 12, .pad .t0 .m 0, .pad .t0 .m 512, .hfin 512, .kpad true 1,
      .kpad false 64, .addi .t0 .t0 1023] : List Instr).all Instr.wellFormed = true := by decide

/-! ### Decoding (section 3.1; each word is written out from its fields: RES, IMM, RB, RA, RD, OP) -/

theorem test_decode_nop :
    decode 0b00000_0000000000_000_000_000_00000000 = .ok (.nop) := by decide +kernel
theorem test_decode_mov :
    decode 0b00000_0000000000_000_000_111_00000001 = .ok (.mov .t1 .h) := by decide +kernel
theorem test_decode_clr :
    decode 0b00000_0000000000_000_000_110_00000010 = .ok (.clr .t0) := by decide +kernel
theorem test_decode_xor :
    decode 0b00000_0000000000_001_000_110_00000011 = .ok (.xor .t0 .h .n) := by decide +kernel
theorem test_decode_add :
    decode 0b00000_0000000000_011_010_010_00000100 = .ok (.add .sigma .sigma .m) := by decide +kernel
theorem test_decode_addi :
    decode 0b00000_1000000000_000_001_001_00000101 = .ok (.addi .n .n 512) := by decide +kernel
theorem test_decode_sbox :
    decode 0b00000_0000000000_000_110_110_00000110 = .ok (.sbox .t0 .t0) := by decide +kernel
theorem test_decode_perm :
    decode 0b00000_0000000000_000_110_110_00000111 = .ok (.perm .t0 .t0) := by decide +kernel
theorem test_decode_lin :
    decode 0b00000_0000000000_000_110_110_00001000 = .ok (.lin .t0 .t0) := by decide +kernel
theorem test_decode_lps :
    decode 0b00000_0000000000_000_110_110_00001001 = .ok (.lps .t0 .t0) := by decide +kernel
theorem test_decode_ldc :
    decode 0b00000_0000000001_000_000_110_00001010 = .ok (.ldc .t0 1) := by decide +kernel
theorem test_decode_e :
    decode 0b00000_0000000000_011_110_111_00010000 = .ok (.e .t1 .t0 .m) := by decide +kernel
theorem test_decode_g :
    decode 0b00000_0000000000_001_011_000_00010001 = .ok (.g .h .m .n) := by decide +kernel
theorem test_decode_pad :
    decode 0b00000_0111111000_000_011_110_00011000 = .ok (.pad .t0 .m 504) := by decide +kernel
theorem test_decode_hinit :
    decode 0b00000_0000000000_000_000_000_00100000 = .ok (.hinit) := by decide +kernel
theorem test_decode_hblk :
    decode 0b00000_0000000000_000_000_000_00100001 = .ok (.hblk) := by decide +kernel
theorem test_decode_hfin :
    decode 0b00000_0001000000_000_000_000_00100010 = .ok (.hfin 64) := by decide +kernel
theorem test_decode_hresume :
    decode 0b00000_0000000000_000_000_000_00100011 = .ok (.hresume) := by decide +kernel
theorem test_decode_kpad :
    decode 0b00000_0010100000_000_000_000_00110000 = .ok (.kpad true 32) := by decide +kernel
theorem test_decode_khash :
    decode 0b00000_0000000000_000_000_000_00110001 = .ok (.khash) := by decide +kernel
theorem test_decode_hipad :
    decode 0b00000_0000000000_000_000_000_00110010 = .ok (.hipad) := by decide +kernel
theorem test_decode_houter :
    decode 0b00000_0000000000_000_000_000_00110011 = .ok (.houter) := by decide +kernel
theorem test_decode_wipe :
    decode 0b00000_0000000000_000_000_000_00111111 = .ok (.wipe) := by decide +kernel
theorem test_decode_refusals :
    decode 0x0000000B = .error .illegalOp ∧ decode 0x00020003 = .error .reservedField ∧
    decode 0x08000000 = .error .reservedField ∧ decode 0x00000120 = .error .reservedField ∧
    decode 0x02400030 = .error .reservedField ∧ decode 0xFFFFFFFF = .error .illegalOp := by
  decide +kernel
theorem test_decodeTableWord :
    decodeTableWord 32 0x00004603 = some (.xor .t0 .h .n) ∧ decodeTableWord 32 0x0B = none := by
  decide +kernel
theorem test_withFetchWord :
    ((nextOf (step (State.reset.withFetchWord 32 0x20))).map fun t => t.hstate) = some .accum := by
  decide +kernel

/-! ### Rejection (section 3.9): HSTATE, the word, STATUS and ERRCMD after -/

theorem test_reject_illegalOp : statusAfter 0x0000000B (inHState .idle) = some (0x00000106, 0x0000000B) := by
  decide +kernel
theorem test_reject_illegalOp34 : statusAfter 0x00000034 (inHState .idle) = some (0x00000106, 0x00000034) := by
  decide +kernel
theorem test_reject_resBit : statusAfter 0x0801F604 (inHState .idle) = some (0x00000206, 0x0801F604) := by
  decide +kernel
theorem test_reject_kpadImm : statusAfter 0x02400030 (inHState .idle) = some (0x00000206, 0x02400030) := by
  decide +kernel
theorem test_reject_ldc0 : statusAfter 0x0000060A (inHState .idle) = some (0x00000306, 0x0000060A) := by
  decide +kernel
theorem test_reject_ldc13 : statusAfter 0x001A060A (inHState .idle) = some (0x00000306, 0x001A060A) := by
  decide +kernel
theorem test_reject_pad513 : statusAfter 0x04021E18 (inHState .idle) = some (0x00000306, 0x04021E18) := by
  decide +kernel
theorem test_reject_hfin513 : statusAfter 0x04020022 (inHState .idle) = some (0x00000306, 0x04020022) := by
  decide +kernel
theorem test_reject_kpad0 : statusAfter 0x00000030 (inHState .idle) = some (0x00000606, 0x00000030) := by
  decide +kernel
theorem test_reject_kpad65 : statusAfter 0x00820030 (inHState .idle) = some (0x00000606, 0x00820030) := by
  decide +kernel
theorem test_reject_hblkIdle : statusAfter 0x00000021 (inHState .idle) = some (0x00000406, 0x00000021) := by
  decide +kernel
theorem test_reject_hblkDone : statusAfter 0x00000021 (inHState .done) = some (0x00000426, 0x00000021) := by
  decide +kernel
theorem test_reject_hfinDone : statusAfter 0x00000022 (inHState .done) = some (0x00000426, 0x00000022) := by
  decide +kernel
theorem test_reject_khashAccum : statusAfter 0x00000031 (inHState .accum) = some (0x00000416, 0x00000031) := by
  decide +kernel
theorem test_reject_houterAccum : statusAfter 0x00000033 (inHState .accum) = some (0x00000416, 0x00000033) := by
  decide +kernel
theorem test_accepted : statusAfter 0x00000020 (inHState .idle) = some (0x00000001, 0) := by
  decide +kernel
theorem test_firstErrorKept :
    ((nextOf (hostAccess ⟨.write 0x21, 0x008, 32⟩ State.reset)).bind (statusAfter 0x04020022)) =
      some (0x00000406, 0x00000021) := by decide +kernel
theorem test_errorCleared :
    ((nextOf (hostAccess ⟨.write 0x6, 0x00C, 32⟩ (reject .sequence 0x21 State.reset))).map
      fun t => (statusWord t, t.errcmd)) = some (0, 0) := by decide +kernel

/-! ### One command each -/

theorem test_nop_status :
    ((nextOf (exec .nop State.reset)).map statusWord) = some 0x00000002 := by decide +kernel
theorem test_mov :
    regAfter (.mov .t1 .h) (withReg .h ramp) .t1 =
      some ramp := by decide +kernel
theorem test_clr :
    regAfter (.clr .t0) (withReg .t0 ramp) .t0 =
      some 0 := by decide +kernel
theorem test_xor_ramp :
    regAfter (.xor .t0 .t0 .t1) ((withReg .t0 ramp).setReg .t1 ones) .t0 =
      some 0xfffefdfcfbfaf9f8f7f6f5f4f3f2f1f0efeeedecebeae9e8e7e6e5e4e3e2e1e0dfdedddcdbdad9d8d7d6d5d4d3d2d1d0cfcecdcccbcac9c8c7c6c5c4c3c2c1c0 := by decide +kernel
theorem test_xor_self :
    regAfter (.xor .t0 .t0 .t0) (withReg .t0 ramp) .t0 =
      some 0 := by decide +kernel
theorem test_add_wraps :
    regAfter (.add .t0 .t0 .t1) ((withReg .t0 ones).setReg .t1 (blk 1)) .t0 =
      some 0 := by decide +kernel
theorem test_add_ramp :
    regAfter (.add .t0 .t0 .t0) (withReg .t0 ramp) .t0 =
      some 0x00020406080a0c0e10121416181a1c1e20222426282a2c2e30323436383a3c3e40424446484a4c4e50525456585a5c5e60626466686a6c6e70727476787a7c7e := by decide +kernel
theorem test_addi_wraps :
    regAfter (.addi .n .n 1023) (withReg .n ones) .n =
      some (blk 0x3FE) := by decide +kernel
theorem test_addi_unsigned :
    regAfter (.addi .n .n 512) State.reset .n =
      some (blk 0x200) := by decide +kernel
theorem test_sbox_ramp :
    regAfter (.sbox .t0 .t0) (withReg .t0 ramp) .t0 =
      some 0xfceedd11cf6e3116fbc4fada23c5044de977f0db932e99ba1736f1bb14cd5fc1f918655ae25cef21811c3c428b018e4f058402aee36a8fa0060bed987fd4d31f := by decide +kernel
theorem test_perm_ramp :
    regAfter (.perm .t0 .t0) (withReg .t0 ramp) .t0 =
      some 0x00081018202830380109111921293139020a121a222a323a030b131b232b333b040c141c242c343c050d151d252d353d060e161e262e363e070f171f272f373f := by decide +kernel
theorem test_lin_byte7 :
    regAfter (.lin .t0 .t0) (withReg .t0 (ofBytes fun k => if k = 7 then 0x01 else 0)) .t0 =
      some 0x641c314b2b8ee0830000000000000000000000000000000000000000000000000000000000000000000000000000000000000000000000000000000000000000 := by decide +kernel
theorem test_lin_ramp :
    regAfter (.lin .t0 .t0) (withReg .t0 ramp) .t0 =
      some 0x93953387e7118d52d3463b2bdf4d4443132e23c297a9027053fd2b6eaff5cb618efe130d077c8e16ce2d1ba13f2047070e45034877c401344e960be44f98c825 := by decide +kernel
theorem test_lps_ramp :
    regAfter (.lps .t0 .t0) (withReg .t0 ramp) .t0 =
      some 0x779271f561cd4cdf3a7222a7566373616e62ac376c30fc825cf74a93ae2ea9b5f867468c999fa006dc1d0fbf25c944fccf1916b528bd95cabba37579bf2e09a0 := by decide +kernel
theorem test_ldc_1 :
    regAfter (.ldc .t0 1) State.reset .t0 =
      some 0xb1085bda1ecadae9ebcb2f81c0657c1f2f6a76432e45d016714eb88d7585c4fc4b7ce09192676901a2422a08a460d31505767436cc744d23dd806559f2a64507 := by decide +kernel
theorem test_ldc_12 :
    regAfter (.ldc .t0 12) State.reset .t0 =
      some 0x378ee767f11631bad21380b00449b17acda43c32bcdf1d77f82012d430219f9b5d80ef9d1891cc86e71da4aa88e12852faf417d5d9b21b9948bc924af11bd720 := by decide +kernel
theorem test_e_zero :
    regAfter (.e .t1 .t0 .t1) State.reset .t1 =
      some 0xd1860527a13ff11bd469b7bdedb798775192f570192dfa3122c16806560f2c1b0a4156146e834256bb85ab7341f94fa985fb15949026cb48edee9a272524c85c := by decide +kernel
theorem test_g_block :
    regAfter (.g .h .m .n) (withReg .m 0xfbeafaebef20fffbf0e1e0f0f520e0ed20e8ece0ebe5f0f2f120fff0eeec20f120faf2fee5e2202ce8f6f3ede220e8e6eee1e8f0f2d1202ce8f0f2e5e220e5d1) .h =
      some 0xcd7f602312faa465e3bb4ccd9795395de2914e938f10f8e127b7ac459b0c517b98ef779ef7c7a46aa7843b8889731f482e5d221e8e2cea852e816cdac407c7af := by decide +kernel
theorem test_pad_127 :
    regAfter (.pad .t0 .m 127) (withReg .m ramp) .t0 =
      some 0x000000000000000000000000000000000000000000000000000000000000000000000000000000000000000000000000b03132333435363738393a3b3c3d3e3f := by decide +kernel
theorem test_pad_512 :
    regAfter (.pad .t0 .m 512) (withReg .m ramp) .t0 =
      some ramp := by decide +kernel
theorem test_hinit :
    ((nextOf (exec .hinit (withReg .iv (fill 0x01)))).map fun t => (t.chain, t.hstate)) =
      some (⟨fill 0x01, 0, 0⟩, .accum) := by decide +kernel
theorem test_hblk_counter_and_sum :
    ((nextOf (exec .hblk ((withReg .m ramp).setHState .accum))).map
      fun t => (t.reg .n, t.reg .sigma)) = some (blk 512, ramp) := by decide +kernel
/-- V-KAT1, the source's published digest. -/
theorem test_hfin_knownAnswer :
    regAfter (.hfin 504) ((withReg .m
      0x00323130393837363534333231303938373635343332313039383736353433323130393837363534333231303938373635343332313039383736353433323130).setHState .accum) .h =
      some 0x486f64c1917879417fef082b3381a4e211c324f074654c38823a7b76f830ad00fa1fbae42b1285c0352f227524bc9ab16254288dd6863dccd5b9f54a1ad0541b := by
  decide +kernel
theorem test_hresume :
    ((nextOf (exec .hresume (inHState .done))).map statusWord) = some 0x00000012 := by
  decide +kernel
theorem test_kpad_left :
    regAfter (.kpad false 32) (withReg .key (ofBytes fun k => if k < 32 then BitVec.ofNat 8 k else 0xEE)) .key =
      some 0x000102030405060708090a0b0c0d0e0f101112131415161718191a1b1c1d1e1f0000000000000000000000000000000000000000000000000000000000000000 := by decide +kernel
theorem test_kpad_right :
    regAfter (.kpad true 1) (withReg .key ramp) .key =
      some 0x0000000000000000000000000000000000000000000000000000000000000000000000000000000000000000000000000000000000000000000000000000003f := by decide +kernel
theorem test_khash :
    ((nextOf (exec .khash ((withReg .h ramp).setHState .done))).map
      fun t => (t.reg .key, t.reg .h, t.hstate)) = some (ramp, ramp, .done) := by decide +kernel
theorem test_hipad :
    regAfter (.hipad) (withReg .key 0x00000000000000000000000000000000000000000000000000000000000000001f1e1d1c1b1a191817161514131211100f0e0d0c0b0a09080706050403020100) .m =
      some 0x363636363636363636363636363636363636363636363636363636363636363629282b2a2d2c2f2e212023222524272639383b3a3d3c3f3e3130333235343736 := by decide +kernel
theorem test_hipad_35 :
    regAfter .hipad { withReg .key 0 with ctrl := 8 } .m = some (fill 0x35) := by decide +kernel
theorem test_houter_sigma :
    ((nextOf (exec .houter { ((withReg .key
        0x00000000000000000000000000000000000000000000000000000000000000001f1e1d1c1b1a191817161514131211100f0e0d0c0b0a09080706050403020100).setReg .h
        0x92fcb623a747ac79f713c5fcfea1d2470eab55b3d16f8f50dbd41872766411088792d030fbef58e6dab9f4ea9c47ebfa7bde036e4d72deb8d8f33a1afe455a0d).setHState .done with
          ctrl := 2 })).map fun t => (t.reg .sigma, t.reg .n, t.reg .key, t.reg .m)) =
      some (0xef59128003a408d6537022595afe2ea36b07b2102dcbebad383074ced2c06d64cad5117143359e2b26043e32eb963946cf3054bea4c9340d344d93735da3b76a,
        blk 1024, 0, 0) := by decide +kernel
theorem test_wipe :
    ((nextOf (exec .wipe
      { regs := ⟨fill 0x11, fill 0x11, fill 0x11, fill 0x11, fill 0x11, fill 0x11, fill 0x11,
          fill 0x11⟩, ctrl := 5, pending := none, done := false, err := true, hstate := .done,
        errcode := .sequence, errcmd := 0x21, scratch := .zero, resetAsserted := false,
        schedule := [], readData := 0, draws := 0, engineId := 0 })).map
      fun t => (t.regs, ctrlWord t, t.errcmd, statusWord t)) =
      some (.reset, 5, 0x21, 0x00000406) := by decide +kernel

/-! ### The window (section 3.10) and LaneMap's spot value -/

theorem test_window_reads :
    readAt 0x000 State.reset = some 0x53545207 ∧ readAt 0x008 State.reset = some 0 ∧
    readAt 0x014 State.reset = some 0 ∧ readAt 0x340 State.reset = some 0 ∧
    readAt 0x27C (withReg .key ramp) = some 0x3C3D3E3F ∧
    readAt 0x33C (withReg .h ramp) = some 0x3C3D3E3F ∧
    readAt 0x320 { withReg .h ramp with ctrl := 4 } = some 0 := by decide +kernel
theorem test_ctrl_write :
    ((nextOf (hostAccess ⟨.write 0xFFFFFFFF, 0x004, 32⟩ State.reset)).bind (readAt 0x004)) =
      some 0xF := by decide +kernel
theorem test_block_write :
    ((nextOf (hostAccess ⟨.write 0x00323130, 0x1C0, 32⟩ State.reset)).map fun t => t.reg .m) =
      some (ofBytes fun k => if k = 1 then 0x32 else if k = 2 then 0x31 else
        if k = 3 then 0x30 else 0) := by decide +kernel
theorem test_ignored_writes :
    hostAccess ⟨.write 5, 0x010, 32⟩ State.reset = .next State.reset ∧
    hostAccess ⟨.write 5, 0x300, 32⟩ State.reset = .next State.reset ∧
    hostAccess ⟨.write 5, 0x800, 32⟩ State.reset = .next State.reset := ⟨rfl, rfl, rfl⟩
theorem test_busErrors :
    hostAccess ⟨.read, 0x000, 16⟩ State.reset = .fault .busError ∧
    hostAccess ⟨.read, 0x002, 32⟩ State.reset = .fault .busError := ⟨rfl, rfl⟩
theorem test_asmText :
    asmText (.addi .n .n 512) = "ADDI n, n, 512" ∧ asmText (.kpad true 32) = "KPAD 32, right" := by
  decide +kernel
/-! ### Witnesses: for each obligation with hypotheses, a state and operands that meet them together -/

/-- A state with HFIN 504 pending in ACCUM and the sequencer's move next. -/
def busyHfin : State := { accept 0x03F00022 (inHState .accum) with schedule := [.sequencer] }

theorem decode_busyHfin : decode 0x03F00022 = .ok (.hfin 504) := by decide +kernel

theorem inv_busyHfin : EngineInv busyHfin := by
  refine ⟨?_, rfl, ?_, ?_, ?_⟩
  · constructor <;> intro _ <;> rfl
  · intro h; cases h
  · intro v hv
    cases hv
    exact ⟨.hfin 504, decode_busyHfin, rfl, fun y hy => by cases hy; rfl⟩
  · intro h; cases h

theorem witness_EncodeOfDecodeIsIdentity : decode 0x00004603 = .ok (.xor .t0 .h .n) := by
  decide +kernel

theorem witness_CheckFollowsThePriorityOrder :
    (0xFFFFFF0B : Word).toNat % 256 = 0x0B ∧ busyNop.busy = true ∧ busyNop.err = false :=
  ⟨rfl, rfl, rfl⟩

/-- A busy state; a free engine and a good word; a free engine and a faulty word. -/
theorem witness_CmdWritePresentsTheCommand :
    busyNop.busy = true ∧
    (State.reset.busy = false ∧ checkOrder 0x00000020 State.reset.hstate = .none) ∧
    (State.reset.busy = false ∧ checkOrder 0x00000021 State.reset.hstate ≠ .none) := by
  decide +kernel

theorem witness_StepRunsTheDecodedCommand :
    busyHfin.resetAsserted = false ∧ busyHfin.pending = some 0x03F00022 ∧
    decode 0x03F00022 = .ok (.hfin 504) ∧ busyHfin.schedule = [.sequencer] ∧
    busyNop.pending = some 0 ∧ decode 0 = .ok .nop ∧ busyNop.schedule = [] ∧
    ({ State.reset with schedule := [readMove 0] } : State).schedule =
      .host ⟨.read, 0, 32⟩ :: [] ∧
    State.reset.pending = none ∧ State.reset.schedule = [] :=
  ⟨rfl, rfl, decode_busyHfin, rfl, rfl, by decide +kernel, rfl, rfl, rfl, rfl⟩

theorem witness_AddWrapsAndCarriesByBytes : 0 < 64 ∧ 63 < 64 ∧
    carryAfter (ofBytes fun k => if k = 63 then 0xFF else 0) (blk 1) (63 - 62) = 1 := by
  decide +kernel

/-- Both ends of LDC's range. -/
theorem witness_LdcLoadsTheConstant :
    (1 ≤ (1 : BitVec 10).toNat ∧ (1 : BitVec 10).toNat ≤ 12) ∧
    (1 ≤ (12 : BitVec 10).toNat ∧ (12 : BitVec 10).toNat ≤ 12) := by decide

theorem witness_GIsTheCompression (s : State) (rd ra rb : Reg) : ∃ u v : State,
    u.reg .t0 = lps (xorBlock (s.reg rd) (s.reg rb)) ∧ u.reg .t1 = s.reg ra ∧
    exec (.e .t1 .t0 .t1) u = .next v :=
  ⟨(s.setReg .t0 (lps (xorBlock (s.reg rd) (s.reg rb)))).setReg .t1 (s.reg ra), _,
    by rw [reg_setReg, if_neg (by decide), reg_setReg, if_pos rfl],
    by rw [reg_setReg, if_pos rfl], rfl⟩

/-- PAD's three kinds of immediate: none kept, all but the top bit kept, all kept. -/
theorem witness_PadKeepsTheLowBits :
    (0 : BitVec 10).toNat < 512 ∧ (511 : BitVec 10).toNat < 512 ∧
    (512 : BitVec 10).toNat = 512 := by decide

theorem witness_OutOfRangeImmediatesAreRejected :
    ¬ Instr.WellFormed (.ldc .t0 0) ∧ ¬ Instr.WellFormed (.ldc .t0 13) ∧
    ¬ Instr.WellFormed (.pad .t0 .m 513) ∧ ¬ Instr.WellFormed (.hfin 1023) ∧
    ¬ Instr.WellFormed (.kpad false 0) ∧ ¬ Instr.WellFormed (.kpad true 65) := by decide

theorem witness_HblkAccumulatesTheBlock : (inHState .accum).hstate = .accum := rfl

theorem witness_HfinFinalises : (inHState .accum).hstate = .accum ∧
    (0 : BitVec 10).toNat ≤ 512 ∧ (511 : BitVec 10).toNat < 512 ∧
    (512 : BitVec 10).toNat = 512 := by decide

/-- A saved hash, put back after a WIPE. -/
theorem witness_HresumeContinuesASavedHash : ∃ s u : State, s.hstate = .accum ∧
    u.hstate = .idle ∧ u.chain = s.chain ∧ u.reg .m = s.reg .m :=
  ⟨(withReg .m ramp).setHState .accum, withReg .m ramp, rfl, rfl, rfl, rfl⟩

theorem witness_PrimitiveCommandsComposeToHblk : (inHState .accum).hstate = .accum := rfl

/-- Both ends of KPAD's range. -/
theorem witness_KpadKeepsKlenBytes :
    (1 ≤ (1 : BitVec 7).toNat ∧ (1 : BitVec 7).toNat ≤ 64) ∧
    (1 ≤ (64 : BitVec 7).toNat ∧ (64 : BitVec 7).toNat ≤ 64) := by decide

theorem witness_KhashCopiesTheDigest : (inHState .done).hstate = .done := rfl

theorem witness_HouterRunsTheOuterHash : (inHState .done).hstate = .done := rfl

/-- A command in its HSTATE, one outside it, one out of range, and a host access. -/
theorem witness_HstateFollowsTheTable :
    (Instr.WellFormed .hblk ∧ sequenceHolds .hblk .accum) ∧
    (Instr.WellFormed .houter ∧ ¬ sequenceHolds .houter .accum) ∧
    (¬ Instr.WellFormed (.hfin 513) ∧
      exec (.hfin 513) State.reset = .next (reject .immRange (encode (.hfin 513)) State.reset)) ∧
    (∃ t, hostAccess (⟨.read, 0x00C, 32⟩ : Access) State.reset = .next t) := by
  refine ⟨⟨rfl, fun y h => by cases h; rfl⟩, ⟨rfl, fun h => ?_⟩, ⟨by decide, ?_⟩, ⟨_, rfl⟩⟩
  · exact absurd (h .done rfl) (by decide)
  · exact execHfin_range 513 State.reset (by decide)

theorem witness_EveryAcceptedCommandCompletes :
    Instr.WellFormed (.hfin 512) ∧ sequenceHolds (.hfin 512) (inHState .accum).hstate :=
  ⟨rfl, fun y h => by cases h; rfl⟩

/-- A block word beside the written one, the last word before DIGEST, and DIGEST when H stays. -/
theorem witness_OtherWindowWordsReadAsBefore :
    (Instr.WellFormed .nop ∧ sequenceHolds .nop .idle ∧ ¬ showsResultOf .nop 0x300) ∧
    (Instr.WellFormed (.clr .h) ∧ sequenceHolds (.clr .h) .idle ∧ ¬ showsResultOf (.clr .h) 0x140) ∧
    (Instr.WellFormed (.clr .h) ∧ sequenceHolds (.clr .h) .idle ∧
      ¬ showsResultOf (.clr .h) 0x2FC) := by
  refine ⟨⟨rfl, fun y h => (by cases h), ?_⟩, ⟨rfl, fun y h => (by cases h), ?_⟩,
    ⟨rfl, fun y h => (by cases h), ?_⟩⟩ <;> unfold showsResultOf <;> decide +kernel

/-- A CTRL that differs only in bits the two commands do not read. -/
theorem witness_OnlyHipadAndHouterReadCtrl :
    (0x5 : BitVec 4).getLsbD 3 = State.reset.ctrl.getLsbD 3 ∧
    (0xD : BitVec 4).getLsbD 1 = State.reset.ctrl.getLsbD 1 := ⟨rfl, rfl⟩

theorem witness_CompressionsAreCounted :
    Instr.WellFormed .hblk ∧ sequenceHolds .hblk (inHState .accum).hstate ∧
    ∃ last, (gCalls .hblk (inHState .accum)).getLast? = some last :=
  ⟨rfl, fun y h => (by cases h; rfl), _, rfl⟩

theorem witness_EveryStepKeepsTheInvariant :
    EngineInv busyHfin ∧ ∃ t, step busyHfin = .next t := by
  have key : step busyHfin = execHfin 504 { busyHfin with schedule := [] } := by
    show runWord 0x03F00022 { busyHfin with schedule := [] } = _
    unfold runWord
    rw [decode_busyHfin]
    rfl
  exact ⟨inv_busyHfin, _, key.trans (execHfin_ok 504 _ (by decide) rfl)⟩

theorem witness_AcceptedCommandsCompleteWithoutError : EngineInv busyHfin ∧
    busyHfin.resetAsserted = false ∧ busyHfin.pending = some 0x03F00022 ∧
    busyHfin.schedule = .sequencer :: [] := ⟨inv_busyHfin, rfl, rfl, rfl⟩

/-- A busy engine, and the offsets at the ends of each clause's range. -/
theorem witness_BusyAccessesAreDropped : busyNop.busy = true ∧
    ([0x000, 0x004, 0x008, 0x00C, 0x010, 0x014, 0x0FC, 0x100, 0x2FC, 0x300, 0xFFC] :
      List Offset).all (fun off => off.toNat % 4 == 0) = true := by decide

theorem witness_FirstErrorIsKept :
    State.reset.err = false ∧ (reject .sequence 0x21 State.reset).err = true ∧
    (∃ t, makeMove (.host ⟨.write 0x2, 0x00C, 32⟩) (reject .sequence 0x21 State.reset) =
      .next t) ∧
    Move.host ⟨.write 0x2, 0x00C, 32⟩ ≠ .reset false ∧ (0x2 : Word).getLsbD 2 = false ∧
    (0x4 : Word).getLsbD 2 = true := ⟨rfl, rfl, ⟨_, rfl⟩, by decide, rfl, rfl⟩

theorem witness_IrqFollowsDone :
    State.reset.busy = false ∧ checkOrder 0x21 State.reset.hstate ≠ .none ∧
    checkOrder 0x20 State.reset.hstate = .none ∧ (0x2 : Word).getLsbD 1 = true := by
  decide +kernel

/-- The ends of the two reserved ranges. -/
theorem witness_ReservedOffsetsReadZero :
    ([0x014, 0x0FC, 0x340, 0xFFC] : List Offset).all (fun off => off.toNat % 4 == 0 &&
      ((decide (0x014 ≤ off.toNat) && decide (off.toNat < 0x100)) ||
        decide (0x340 ≤ off.toNat))) = true := by decide

theorem witness_CtrlReadsBackItsFourBits : State.reset.busy = false := rfl

/-- The first word of H and the last word of T1. -/
theorem witness_BlockWordsReadBackAsWritten : State.reset.busy = false ∧
    (0 < 16 ∧ (0x100 : Offset).toNat = 0x100 + 0x40 * (0 : BitVec 3).toNat + 4 * 0) ∧
    (15 < 16 ∧ (0x2FC : Offset).toNat = 0x100 + 0x40 * (7 : BitVec 3).toNat + 4 * 15) := by
  decide

/-- Words 0, 7, 8 and 15 of DIGEST. -/
theorem witness_DigestShowsH : State.reset.busy = false ∧
    (0 < 16 ∧ (0x300 : Offset).toNat = 0x300 + 4 * 0) ∧
    (7 < 16 ∧ (0x31C : Offset).toNat = 0x300 + 4 * 7) ∧
    (8 < 16 ∧ (0x320 : Offset).toNat = 0x300 + 4 * 8) ∧
    (15 < 16 ∧ (0x33C : Offset).toNat = 0x300 + 4 * 15) := by decide

theorem witness_BusyBlockReadsAreFree : busyNop.busy = true ∧
    ((0x100 : Offset).toNat % 4 = 0 ∧ 0x100 ≤ (0x100 : Offset).toNat ∧
      (0x100 : Offset).toNat < 0x340) ∧
    ((0x33C : Offset).toNat % 4 = 0 ∧ 0x100 ≤ (0x33C : Offset).toNat ∧
      (0x33C : Offset).toNat < 0x340) ∧
    ∃ t, hostAccess ⟨.read, 0x33C, 32⟩ busyNop = .next t :=
  ⟨by decide, by decide, by decide, _, rfl⟩

theorem witness_OnlyAlignedWordAccessesArePerformed :
    (16 ≠ 32 ∨ (0 : Offset).toNat % 4 ≠ 0) ∧ (32 ≠ 32 ∨ (0x002 : Offset).toNat % 4 ≠ 0) ∧
    (0xFFC : Offset).toNat % 4 = 0 := by decide

/-- Two engines, their windows at pages 5 and 9. -/
def twoEngines : Platform := Platform.reset [5, 9]

theorem wellPlaced_twoEngines : twoEngines.WellPlaced := by
  constructor
  · intro j k e f hj hk h
    match j, k with
    | 0, 0 => exact absurd rfl h
    | 0, 1 => cases hj; cases hk; decide
    | 1, 0 => cases hj; cases hk; decide
    | 1, 1 => exact absurd rfl h
    | j + 2, _ => cases hj
    | _, k + 2 => cases hk
  · intro k e hk
    match k with
    | 0 => cases hk; rfl
    | 1 => cases hk; rfl
    | k + 2 => cases hk

/-- The windows of two engines: the first and last word of each reaches that engine and no other; the
addresses beside a window reach none. -/
theorem test_routing :
    routeFrom .read 0x5000 32 0 twoEngines.engines = some (0, readMove 0x000) ∧
    routeFrom .read 0x5FFC 32 0 twoEngines.engines = some (0, readMove 0xFFC) ∧
    routeFrom .read 0x9000 32 0 twoEngines.engines = some (1, readMove 0x000) ∧
    routeFrom .read 0x9FFC 32 0 twoEngines.engines = some (1, readMove 0xFFC) ∧
    routeFrom .read 0x4FFC 32 0 twoEngines.engines = none ∧
    routeFrom .read 0x6000 32 0 twoEngines.engines = none := by decide +kernel

/-- A platform whose engines are `twoEngines` after one step of the schedule `[mv]`. -/
def platformAfter (mv : PlatformMove) : Option (List Engine) :=
  match platformStep { twoEngines with schedule := [mv] } with
  | .next q => some q.engines
  | .fault _ => none
  | .refused _ => none

/-- A CTRL write to the second engine's window leaves the first engine at reset. -/
theorem test_engines_share_nothing :
    platformAfter (.bus (.write 0x5) 0x9004 32) =
      some [Engine.reset 0 5, ⟨9, { State.reset with engineId := 1, ctrl := 5 }⟩] := by
  decide +kernel

/-- Two engines; an address in the second window; addresses at both edges and outside every window; moves
of both engines. -/
theorem witness_WindowLiesAtBase :
    (0x4FFF < Config.base 5 ∧ Config.base 5 + 0x1000 ≤ 0x6000) ∧
    ({ twoEngines with schedule := [.sequencer 1] } : Platform).schedule = .sequencer 1 :: [] ∧
    twoEngines.WellPlaced ∧
    (∃ q, platformMove (.bus .read 0x9000 32) twoEngines = .next q) ∧
    ¬ movesEngine twoEngines 0 (.bus .read 0x9000 32) ∧
    twoEngines.engines[1]? = some (Engine.reset 1 9) ∧
    (∃ t, makeMove (readMove 0x000) (Engine.reset 1 9).state = .next t) ∧
    makeMove (.host ⟨.read, 0x002, 32⟩) (Engine.reset 1 9).state = .fault .busError ∧
    (∃ t, makeMove .sequencer (Engine.reset 1 9).state = .next t) ∧
    (∃ t, makeMove (.reset true) (Engine.reset 1 9).state = .next t) ∧
    (∀ k, ¬ movesEngine twoEngines k (.bus .read 0x7000 32)) ∧
    (0 ≠ 1 ∧ (∃ q, moveEngine 0 .sequencer twoEngines = .next q) ∧
      (∃ r, moveEngine 1 (.reset true) twoEngines = .next r)) := by
  refine ⟨by decide, rfl, wellPlaced_twoEngines, ⟨_, rfl⟩, ?_, rfl, ⟨_, rfl⟩, rfl, ⟨_, rfl⟩, ⟨_, rfl⟩,
    ?_, by decide, ⟨_, rfl⟩, ⟨_, rfl⟩⟩
  · rintro ⟨e, he, hl, hr⟩
    cases he
    exact absurd hr (by decide)
  · rintro k ⟨e, he, hl, hr⟩
    match k with
    | 0 => cases he; exact absurd hr (by decide)
    | 1 => cases he; exact absurd hl (by decide)
    | k + 2 => cases he

theorem witness_ResetPulseRestoresTheResetState :
    ({ busyHfin with schedule := [.reset true, .reset false] } : State).schedule =
      .reset true :: .reset false :: [] := rfl

/-- WIPE pending in DONE; reset held in DONE; a CTRL write. -/
theorem witness_OnlyWipeAndResetReturnToIdle :
    (∃ t, makeMove .sequencer (accept 0x3F (inHState .done)) = .next t ∧
      (accept 0x3F (inHState .done)).hstate ≠ .idle ∧ t.hstate = .idle) ∧
    (∃ t, makeMove (.reset false) (assertReset (inHState .done)) = .next t ∧
      (assertReset (inHState .done)).hstate ≠ .idle ∧ t.hstate = .idle) ∧
    (∃ t, makeMove (.host ⟨.write 1, 0x004, 32⟩) State.reset = .next t ∧
      t.ctrl ≠ State.reset.ctrl) := by
  refine ⟨?_, ⟨_, rfl, by decide, rfl⟩, ⟨_, rfl, by decide⟩⟩
  have hd : decode 0x3F = .ok .wipe := by decide +kernel
  refine ⟨finishWith .zero ((zeroRegs (accept 0x3F (inHState .done))).setHState .idle), ?_,
    by decide, rfl⟩
  show runWord 0x3F (accept 0x3F (inHState .done)) = _
  unfold runWord
  rw [hd]
  rfl

theorem witness_ResetWindowReadsZeroButId :
    (0x004 : Offset).toNat % 4 = 0 ∧ (0x004 : Offset) ≠ 0 ∧ (0xFFC : Offset).toNat % 4 = 0 ∧
    (0xFFC : Offset) ≠ 0 := by decide

end Sys2Proof.Tests
end

section
/-! The proofs of the family 00_scope.md: what a step is (R15), and windows at BASE (R7, R76, R255). -/

namespace Sys2Proof.Machine

/-! ### The equations of a step -/

theorem step_of_schedule_nil {s : State} (h : s.schedule = []) : step s = makeMove .sequencer s := by
  simp only [step, advance, h]

theorem step_of_schedule_cons {s : State} {mv : Move} {rest : List Move}
    (h : s.schedule = mv :: rest) : step s = makeMove mv { s with schedule := rest } := by
  simp only [step, advance, h]

theorem makeMove_host {s : State} (a : Access) (h : s.resetAsserted = false) :
    makeMove (.host a) s = hostAccess a s := by
  simp [makeMove, h]

theorem makeMove_sequencer {s : State} (h : s.resetAsserted = false) :
    makeMove .sequencer s = complete s := by
  simp [makeMove, h]

theorem complete_of_pending_none {s : State} (h : s.pending = none) : complete s = .next s := by
  simp only [complete, h]

theorem complete_of_decode {s : State} {v : Word} {i : Instr} (hp : s.pending = some v)
    (hd : decode v = .ok i) : complete s = exec i s := by
  simp only [complete, hp, runWord, hd]

theorem makeMove_sequencer_of_decode {s : State} {v : Word} {i : Instr}
    (h : s.resetAsserted = false) (hp : s.pending = some v) (hd : decode v = .ok i) :
    makeMove .sequencer s = exec i s :=
  (makeMove_sequencer h).trans (complete_of_decode hp hd)

/-- Settles O7: the step's move is the scheduled one or the sequencer's, and the sequencer's move is exec
of the decoded pending word. -/
theorem stepRunsTheDecodedCommand : Obligations.StepRunsTheDecodedCommand := by
  intro s hreset
  refine ⟨?_, ?_, ?_, ?_⟩
  · intro v i rest hp hd hs
    rw [step_of_schedule_cons hs]
    exact makeMove_sequencer_of_decode hreset hp hd
  · intro v i hp hd hs
    rw [step_of_schedule_nil hs]
    exact makeMove_sequencer_of_decode hreset hp hd
  · intro a rest hs
    rw [step_of_schedule_cons hs]
    exact makeMove_host a hreset
  · intro hp hs
    rw [step_of_schedule_nil hs, makeMove_sequencer hreset, complete_of_pending_none hp]

/-! ### The window at BASE (R7, R76) -/

theorem base_mod_window (page : Nat) : Config.base page % 0x1000 = 0 :=
  Nat.mul_mod_left page 0x1000

theorem windowOffset_of_outside {page addr : Nat}
    (h : addr < Config.base page ∨ Config.base page + 0x1000 ≤ addr) :
    windowOffset page addr = none :=
  (windowOffset_eq_none page addr).mpr (by omega)

theorem inWindow_of_windowOffset {page addr : Nat} {off : Offset}
    (h : windowOffset page addr = some off) :
    Config.base page ≤ addr ∧ addr < Config.base page + 0x1000 := by
  by_contra hout
  rw [(windowOffset_eq_none page addr).mpr hout] at h
  cases h

/-! ### A move of one engine -/

theorem moveEngine_of_none {k : Nat} {p : Platform} (mv : Move) (h : p.engines[k]? = none) :
    moveEngine k mv p = .next p := by
  simp only [moveEngine, h]

theorem moveEngine_of_next {k : Nat} {mv : Move} {p : Platform} {e : Engine} {t : State}
    (he : p.engines[k]? = some e) (hm : makeMove mv e.state = .next t) :
    moveEngine k mv p = .next { p with engines := p.engines.set k { e with state := t } } := by
  simp only [moveEngine, he, hm]

theorem moveEngine_of_fault {k : Nat} {mv : Move} {p : Platform} {e : Engine} {f : Fault}
    (he : p.engines[k]? = some e) (hm : makeMove mv e.state = .fault f) :
    moveEngine k mv p = .fault f := by
  simp only [moveEngine, he, hm]

/-- A move that has a next platform found no engine, or replaced its engine's state alone. -/
theorem moveEngine_next_cases {k : Nat} {mv : Move} {p q : Platform}
    (h : moveEngine k mv p = .next q) :
    (p.engines[k]? = none ∧ q = p) ∨
    (∃ e t, p.engines[k]? = some e ∧ makeMove mv e.state = .next t ∧
      q = { p with engines := p.engines.set k { e with state := t } }) := by
  rcases moveEngine_cases k mv p with ⟨he, hq⟩ | ⟨e, t, he, hm, hq⟩ | ⟨e, f, he, hm, hq⟩ |
    ⟨e, r, he, hm, hq⟩ <;> rw [hq] at h <;> cases h
  · exact .inl ⟨he, rfl⟩
  · exact .inr ⟨e, t, he, hm, rfl⟩

theorem moveEngine_keeps_length {k : Nat} {mv : Move} {p q : Platform}
    (h : moveEngine k mv p = .next q) : q.engines.length = p.engines.length := by
  rcases moveEngine_next_cases h with ⟨_, rfl⟩ | ⟨e, t, _, _, rfl⟩
  · rfl
  · exact List.length_set

theorem moveEngine_keeps_schedule {k : Nat} {mv : Move} {p q : Platform}
    (h : moveEngine k mv p = .next q) : q.schedule = p.schedule := by
  rcases moveEngine_next_cases h with ⟨_, rfl⟩ | ⟨e, t, _, _, rfl⟩ <;> rfl

theorem moveEngine_keeps_others {j k : Nat} {mv : Move} {p q : Platform}
    (h : moveEngine j mv p = .next q) (hne : j ≠ k) : q.engines[k]? = p.engines[k]? := by
  rcases moveEngine_next_cases h with ⟨_, rfl⟩ | ⟨e, t, _, _, rfl⟩
  · rfl
  · exact List.getElem?_set_ne hne

/-- The engine at any position after a move stood there before it, with the same page and number. -/
theorem moveEngine_keeps_placement {j k : Nat} {mv : Move} {p q : Platform} {f : Engine}
    (h : moveEngine j mv p = .next q) (hf : q.engines[k]? = some f) :
    ∃ e, p.engines[k]? = some e ∧ e.page = f.page ∧ e.state.engineId = f.state.engineId := by
  by_cases hjk : j = k
  · subst hjk
    rcases moveEngine_next_cases h with ⟨_, rfl⟩ | ⟨e, t, he, hm, rfl⟩
    · exact ⟨f, hf, rfl, rfl⟩
    · obtain ⟨hlt, -⟩ := List.getElem?_eq_some_iff.mp he
      rw [List.getElem?_set_self hlt] at hf
      cases hf
      exact ⟨e, he, rfl, (makeMove_engineId mv e.state t hm).symm⟩
  · exact ⟨f, moveEngine_keeps_others h hjk ▸ hf, rfl, rfl⟩

theorem moveEngine_keeps_wellPlaced {k : Nat} {mv : Move} {p q : Platform}
    (h : moveEngine k mv p = .next q) (hp : p.WellPlaced) : q.WellPlaced where
  ownWindow := by
    intro a b e f he hf hab
    obtain ⟨e₀, he₀, hpe, -⟩ := moveEngine_keeps_placement h he
    obtain ⟨f₀, hf₀, hpf, -⟩ := moveEngine_keeps_placement h hf
    rw [← hpe, ← hpf]
    exact hp.ownWindow a b e₀ f₀ he₀ hf₀ hab
  ownNumber := by
    intro a e he
    obtain ⟨e₀, he₀, -, hid⟩ := moveEngine_keeps_placement h he
    rw [← hid]
    exact hp.ownNumber a e₀ he₀

/-- Moves of two engines commute (R255): each replaces the state at its own position only. -/
theorem moveEngine_comm {j k : Nat} {m n : Move} {p q r : Platform} (hjk : j ≠ k)
    (hq : moveEngine j m p = .next q) (hr : moveEngine k n p = .next r) :
    ∃ u, moveEngine k n q = .next u ∧ moveEngine j m r = .next u := by
  have hqk : q.engines[k]? = p.engines[k]? := moveEngine_keeps_others hq hjk
  have hrj : r.engines[j]? = p.engines[j]? := moveEngine_keeps_others hr hjk.symm
  rcases moveEngine_next_cases hq with ⟨hj, rfl⟩ | ⟨e, s, he, hm, rfl⟩
  · exact ⟨r, hr, moveEngine_of_none m (hrj.trans hj)⟩
  rcases moveEngine_next_cases hr with ⟨hk, rfl⟩ | ⟨f, t, hf, hn, rfl⟩
  · exact ⟨_, moveEngine_of_none n (hqk.trans hk), hq⟩
  · refine ⟨_, moveEngine_of_next (hqk.trans hf) hn, ?_⟩
    rw [moveEngine_of_next (hrj.trans he) hm, List.set_comm _ _ hjk.symm]

/-! ### A move on a platform -/

theorem platformStep_of_schedule_cons {p : Platform} {mv : PlatformMove} {rest : List PlatformMove}
    (h : p.schedule = mv :: rest) : platformStep p = platformMove mv { p with schedule := rest } := by
  simp only [platformStep, h]

/-- An access goes to no engine, no window holding its address, or to an engine whose window does, at the
address's offset there. -/
theorem platformMove_bus_cases (kind : AccessKind) (addr width : Nat) (p : Platform) :
    ((∀ (k : Nat) (e : Engine), p.engines[k]? = some e → windowOffset e.page addr = none) ∧
      platformMove (.bus kind addr width) p = .next p) ∨
    (∃ k e off, p.engines[k]? = some e ∧ windowOffset e.page addr = some off ∧
      platformMove (.bus kind addr width) p = moveEngine k (.host ⟨kind, off, width⟩) p) := by
  simp only [platformMove, busMove]
  cases hroute : routeFrom kind addr width 0 p.engines with
  | none => exact .inl ⟨(routeFrom_none kind addr width 0 p.engines).mp hroute, rfl⟩
  | some target =>
    obtain ⟨j, mv⟩ := target
    obtain ⟨i, e, off, rfl, he, hoff, rfl⟩ := routeFrom_some kind addr width 0 j mv p.engines hroute
    rw [Nat.zero_add]
    exact .inr ⟨i, e, off, he, hoff, rfl⟩

/-- A platform move is for no engine and changes nothing, or is one move of an engine it is for. -/
theorem platformMove_cases (mv : PlatformMove) (p : Platform) :
    ((∀ k, ¬ movesEngine p k mv) ∧ platformMove mv p = .next p) ∨
    (∃ k m, movesEngine p k mv ∧ platformMove mv p = moveEngine k m p) := by
  cases mv with
  | sequencer k => exact .inr ⟨k, .sequencer, rfl, rfl⟩
  | reset k b => exact .inr ⟨k, .reset b, rfl, rfl⟩
  | bus kind addr width =>
    rcases platformMove_bus_cases kind addr width p with ⟨hnone, h⟩ | ⟨k, e, off, he, hoff, h⟩
    · refine .inl ⟨?_, h⟩
      rintro k ⟨e, he, hin⟩
      exact (windowOffset_eq_none e.page addr).mp (hnone k e he) hin
    · exact .inr ⟨k, _, ⟨e, he, inWindow_of_windowOffset hoff⟩, h⟩

theorem platformMove_of_no_engine {p : Platform} {mv : PlatformMove}
    (h : ∀ k, ¬ movesEngine p k mv) : platformMove mv p = .next p := by
  rcases platformMove_cases mv p with ⟨_, hmove⟩ | ⟨k, m, hfor, _⟩
  · exact hmove
  · exact absurd hfor (h k)

/-- What a platform move leaves as it was (R255). -/
theorem platformMove_frame {p q : Platform} {mv : PlatformMove} (hp : p.WellPlaced)
    (h : platformMove mv p = .next q) :
    q.WellPlaced ∧ q.engines.length = p.engines.length ∧ q.schedule = p.schedule ∧
      ∀ k, ¬ movesEngine p k mv → q.engines[k]? = p.engines[k]? := by
  rcases platformMove_cases mv p with ⟨_, hmove⟩ | ⟨j, m, hfor, hmove⟩ <;> rw [hmove] at h
  · cases h
    exact ⟨hp, rfl, rfl, fun _ _ => rfl⟩
  · refine ⟨moveEngine_keeps_wellPlaced h hp, moveEngine_keeps_length h,
      moveEngine_keeps_schedule h, ?_⟩
    intro k hk
    refine moveEngine_keeps_others h ?_
    rintro rfl
    exact hk hfor

/-- An access at BASE plus an offset is the access at that offset to that engine: windows of their own
hold an address once (R76, R255). -/
theorem platformMove_bus_at_base {p : Platform} {k : Nat} {e : Engine} (hp : p.WellPlaced)
    (he : p.engines[k]? = some e) (kind : AccessKind) (off : Offset) (width : Nat) :
    platformMove (.bus kind (Config.base e.page + off.toNat) width) p =
      moveEngine k (.host ⟨kind, off, width⟩) p := by
  have hoff : windowOffset e.page (Config.base e.page + off.toNat) = some off :=
    windowOffset_base e.page off
  rcases platformMove_bus_cases kind (Config.base e.page + off.toNat) width p with
    ⟨hnone, _⟩ | ⟨j, f, off', hf, hoff', hmove⟩
  · rw [hnone k e he] at hoff
    cases hoff
  · have hpage : f.page = e.page :=
      page_unique _ _ _ (inWindow_of_windowOffset hoff') (inWindow_of_windowOffset hoff)
    have hjk : j = k := by
      by_contra hne
      exact hp.ownWindow j k f e hf he hne hpage
    rw [hpage, hoff] at hoff'
    cases hoff'
    rw [hmove, hjk]

/-- Settles O57: an access is routed by the one window that holds its address, and an engine's move
replaces the state at its own position only. -/
theorem windowLiesAtBase : Obligations.WindowLiesAtBase := by
  refine ⟨?_, ?_, ?_, ?_, ?_, ?_, ?_⟩
  · exact fun page => ⟨base_mod_window page, windowOffset_base page,
      fun _ h => windowOffset_of_outside h⟩
  · exact fun p mv rest h => platformStep_of_schedule_cons h
  · exact fun p q mv hp h => platformMove_frame hp h
  · intro p k e kind off width hp he
    rw [platformMove_bus_at_base hp he]
    exact ⟨fun t ht => moveEngine_of_next he ht, fun f hf => moveEngine_of_fault he hf⟩
  · exact fun p k e t he => ⟨fun ht => moveEngine_of_next he ht, fun b ht => moveEngine_of_next he ht⟩
  · exact fun p kind addr width h => platformMove_of_no_engine h
  · exact fun p q r j k m n hjk hq hr => moveEngine_comm hjk hq hr

end Sys2Proof.Machine
end

section
/-! The proofs of the family 10_state.md: what a command reads of the state (R37, R50), and the registers
as the host sees them through the window (R36 to R42, R51). -/

namespace Sys2Proof.Machine

/-! ### What a command reads

CTRL and the scratch are varied together: a command ends from `s` as it ends from `s.withHidden c d`, and
noninterference for either is the case where the other stays. -/

/-- `s` with another CTRL and another scratch. -/
def State.withHidden (s : State) (c : BitVec 4) (d : Scratch) : State :=
  { s with ctrl := c, scratch := d }

theorem reg_withHidden (s : State) (c : BitVec 4) (d : Scratch) (r : Reg) :
    (s.withHidden c d).reg r = s.reg r := rfl

/-- A command `i` ends alike from `s` and from `s'`: it completes with the same block registers and the same
HSTATE, it wipes, or it is rejected with the same code. -/
inductive EndsAlike (i : Instr) (s s' : State) (o o' : Host.Outcome State Fault Refusal) : Prop where
  | completes (f : RegFile) (x : HState) (h : o = .next (finish { s with regs := f, hstate := x }))
      (h' : o' = .next (finish { s' with regs := f, hstate := x }))
  | wipes (h : o = execWipe s) (h' : o' = execWipe s')
  | rejected (code : ErrCode) (h : o = raise code i s) (h' : o' = raise code i s')

section
variable (i : Instr) (s : State) (c : BitVec 4) (d : Scratch)

theorem writeResult_endsAlike (rd : Reg) (v : Block) :
    EndsAlike i s (s.withHidden c d) (writeResult rd v s) (writeResult rd v (s.withHidden c d)) :=
  .completes (s.regs.set rd v) s.hstate rfl rfl

theorem setChain_setHState_endsAlike (k : Chain) (x : HState) :
    EndsAlike i s (s.withHidden c d) (.next (finish ((s.setChain k).setHState x)))
      (.next (finish (((s.withHidden c d).setChain k).setHState x))) :=
  .completes (s.setChain k).regs x rfl rfl

theorem setChain_endsAlike (k : Chain) :
    EndsAlike i s (s.withHidden c d) (.next (finish (s.setChain k)))
      (.next (finish ((s.withHidden c d).setChain k))) :=
  .completes (s.setChain k).regs s.hstate rfl rfl

theorem requireHState_endsAlike (x : HState) {o o' : Host.Outcome State Fault Refusal}
    (h : EndsAlike i s (s.withHidden c d) o o') :
    EndsAlike i s (s.withHidden c d) (requireHState x i s o)
      (requireHState x i (s.withHidden c d) o') := by
  by_cases hx : s.hstate = x
  · rwa [requireHState_ok x i s o hx, requireHState_ok x i (s.withHidden c d) o' hx]
  · exact .rejected .sequence (requireHState_not x i s o hx)
      (requireHState_not x i (s.withHidden c d) o' hx)

theorem requireImmAtMost_endsAlike (most : Nat) (imm : BitVec 10)
    {o o' : Host.Outcome State Fault Refusal} (h : EndsAlike i s (s.withHidden c d) o o') :
    EndsAlike i s (s.withHidden c d) (requireImmAtMost most imm i s o)
      (requireImmAtMost most imm i (s.withHidden c d) o') := by
  rcases Nat.lt_or_ge most imm.toNat with hi | hi
  · exact .rejected .immRange (requireImmAtMost_not most imm i s o hi)
      (requireImmAtMost_not most imm i (s.withHidden c d) o' hi)
  · rwa [requireImmAtMost_ok most imm i s o hi,
      requireImmAtMost_ok most imm i (s.withHidden c d) o' hi]

end

theorem execLdc_endsAlike (rd : Reg) (imm : BitVec 10) (s : State) (c : BitVec 4) (d : Scratch) :
    EndsAlike (.ldc rd imm) s (s.withHidden c d) (execLdc rd imm s)
      (execLdc rd imm (s.withHidden c d)) := by
  by_cases h : 1 ≤ imm.toNat ∧ imm.toNat ≤ 12
  · rw [execLdc_ok rd imm s h.1 h.2, execLdc_ok rd imm _ h.1 h.2]
    exact writeResult_endsAlike _ s c d rd _
  · exact .rejected .immRange (execLdc_not rd imm s h) (execLdc_not rd imm _ h)

theorem execKpad_endsAlike (align : Bool) (klen : BitVec 7) (s : State) (c : BitVec 4)
    (d : Scratch) :
    EndsAlike (.kpad align klen) s (s.withHidden c d) (execKpad align klen s)
      (execKpad align klen (s.withHidden c d)) := by
  by_cases h : 1 ≤ klen.toNat ∧ klen.toNat ≤ 64
  · rw [execKpad_ok align klen s h, execKpad_ok align klen _ h]
    exact writeResult_endsAlike _ s c d .key _
  · exact .rejected .keyLen (execKpad_not align klen s h) (execKpad_not align klen _ h)

theorem execHblk_endsAlike (s : State) (c : BitVec 4) (d : Scratch) :
    EndsAlike .hblk s (s.withHidden c d) (execHblk s) (execHblk (s.withHidden c d)) := by
  have hchain : (s.withHidden c d).chain = s.chain := rfl
  by_cases hs : s.hstate = .accum
  · rw [execHblk_ok s hs, execHblk_ok (s.withHidden c d) hs, hchain, reg_withHidden]
    exact setChain_endsAlike .hblk s c d (chainBlock s.chain (s.reg .m))
  · exact .rejected .sequence (execHblk_not s hs) (execHblk_not (s.withHidden c d) hs)

/-- The chain state, M and HSTATE after HIPAD depend on CTRL through the inner-pad byte alone (R217). -/
theorem execHipad_endsAlike (s : State) (c : BitVec 4) (d : Scratch)
    (h : c.getLsbD 3 = s.ctrl.getLsbD 3) :
    EndsAlike .hipad s (s.withHidden c d) (execHipad s) (execHipad (s.withHidden c d)) := by
  have hbit : (s.withHidden c d).ipad35 = s.ipad35 := h
  have hpad : innerPadByte (s.withHidden c d) = innerPadByte s := by
    rw [innerPadByte, hbit]
    rfl
  refine .completes _ .accum rfl ?_
  rw [execHipad, hpad]
  rfl

/-- The registers after HOUTER depend on CTRL through BNDPAD alone (R214). -/
theorem execHouter_endsAlike (s : State) (c : BitVec 4) (d : Scratch)
    (h : c.getLsbD 1 = s.ctrl.getLsbD 1) :
    EndsAlike .houter s (s.withHidden c d) (execHouter s) (execHouter (s.withHidden c d)) := by
  have hbit : (s.withHidden c d).bndpad = s.bndpad := h
  by_cases hs : s.hstate = .done
  · rw [execHouter_ok s hs, execHouter_ok (s.withHidden c d) hs, hbit, reg_withHidden,
      reg_withHidden]
    generalize outerHash s.bndpad (s.reg .key) (s.reg .h) = chain
    exact .completes _ .done rfl rfl
  · exact .rejected .sequence (execHouter_not s hs) (execHouter_not (s.withHidden c d) hs)

/-- No command reads the scratch, and CTRL reaches a result through HIPAD's bit 3 and HOUTER's bit 1 only. -/
theorem exec_endsAlike (i : Instr) (s : State) (c : BitVec 4) (d : Scratch)
    (hipad35 : i = .hipad → c.getLsbD 3 = s.ctrl.getLsbD 3)
    (hbndpad : i = .houter → c.getLsbD 1 = s.ctrl.getLsbD 1) :
    EndsAlike i s (s.withHidden c d) (exec i s) (exec i (s.withHidden c d)) := by
  cases i with
  | nop => exact .completes s.regs s.hstate rfl rfl
  | mov rd ra => exact writeResult_endsAlike _ s c d rd _
  | clr rd => exact writeResult_endsAlike _ s c d rd _
  | xor rd ra rb => exact writeResult_endsAlike _ s c d rd _
  | add rd ra rb => exact writeResult_endsAlike _ s c d rd _
  | addi rd ra imm => exact writeResult_endsAlike _ s c d rd _
  | sbox rd ra => exact writeResult_endsAlike _ s c d rd _
  | perm rd ra => exact writeResult_endsAlike _ s c d rd _
  | lin rd ra => exact writeResult_endsAlike _ s c d rd _
  | lps rd ra => exact writeResult_endsAlike _ s c d rd _
  | ldc rd imm => exact execLdc_endsAlike rd imm s c d
  | e rd ra rb => exact writeResult_endsAlike _ s c d rd _
  | g rd ra rb => exact writeResult_endsAlike _ s c d rd _
  | pad rd ra imm =>
    exact requireImmAtMost_endsAlike _ s c d 512 imm (writeResult_endsAlike _ s c d rd _)
  | hinit => exact setChain_setHState_endsAlike _ s c d (chainInit (s.reg .iv)) .accum
  | hblk => exact execHblk_endsAlike s c d
  | hfin imm =>
    exact requireImmAtMost_endsAlike _ s c d 512 imm
      (requireHState_endsAlike _ s c d .accum
        (setChain_setHState_endsAlike _ s c d (chainFinal s.chain (s.reg .m) (immValue imm)) .done))
  | hresume => exact .completes s.regs .accum rfl rfl
  | kpad align klen => exact execKpad_endsAlike align klen s c d
  | khash => exact requireHState_endsAlike _ s c d .done (writeResult_endsAlike _ s c d .key _)
  | hipad => exact execHipad_endsAlike s c d (hipad35 rfl)
  | houter => exact execHouter_endsAlike s c d (hbndpad rfl)
  | wipe => exact .wipes rfl rfl

/-- Settles O39: a command ends alike under two values of CTRL that agree in the bit it reads. -/
theorem onlyHipadAndHouterReadCtrl : Obligations.OnlyHipadAndHouterReadCtrl := by
  intro i s c hipad35 hbndpad
  have hu : { s with ctrl := c } = s.withHidden c s.scratch := rfl
  rw [hu]
  rcases exec_endsAlike i s c s.scratch hipad35 hbndpad with
    ⟨f, x, h, h'⟩ | ⟨h, h'⟩ | ⟨code, h, h'⟩
  · exact ⟨_, _, h, h', rfl, rfl, rfl⟩
  · exact ⟨_, _, h, h', rfl, rfl, rfl⟩
  · refine ⟨_, _, h, h', ?_, ?_, ?_⟩ <;> simp [State.withHidden]

/-- A rejection leaves the scratch as it is and reads nothing of it. -/
theorem reject_withScratch (code : ErrCode) (v : Word) (s : State) (d : Scratch) :
    reject code v { s with scratch := d } = { reject code v s with scratch := d } := by
  cases h : s.err
  · simp [reject, recordError, h]
  · simp [reject, recordError, h]

/-- Settles O40: a command ends alike whatever the scratch holds, and a completed command leaves a scratch
that does not depend on it. -/
theorem scratchIsNeverRead : Obligations.ScratchIsNeverRead := by
  intro i s d
  have hu : { s with scratch := d } = s.withHidden s.ctrl d := rfl
  rw [hu]
  rcases exec_endsAlike i s s.ctrl d (fun _ => rfl) (fun _ => rfl) with
    ⟨f, x, h, h'⟩ | ⟨h, h'⟩ | ⟨code, h, h'⟩
  · exact ⟨_, _, h, h', rfl⟩
  · exact ⟨_, _, h, h', rfl⟩
  · refine ⟨_, _, h, h', ?_⟩
    rw [← hu, reject_withScratch]

/-! ### Accesses of the window -/

theorem hostAccess_read {off : Offset} (s : State) (h : off.toNat % 4 = 0) :
    hostAccess ⟨.read, off, 32⟩ s = .next (hostRead off s) := by
  simp [hostAccess, aligned, h]

theorem hostAccess_write {off : Offset} (v : Word) (s : State) (h : off.toNat % 4 = 0) :
    hostAccess ⟨.write v, off, 32⟩ s = .next (hostWrite off v s) := by
  simp [hostAccess, aligned, h]

theorem hostRead_of_some {off : Offset} {s : State} {w : Word} (h : windowRead s off = some w) :
    hostRead off s = { s with readData := w } := by
  simp only [hostRead, h]

/-- An aligned read where the window has a value returns that value and changes nothing else (R75). -/
theorem hostAccess_read_of_some {off : Offset} {s : State} {w : Word} (h : off.toNat % 4 = 0)
    (hw : windowRead s off = some w) :
    hostAccess ⟨.read, off, 32⟩ s = .next { s with readData := w } := by
  rw [hostAccess_read s h, hostRead_of_some hw]

/-- An offset at or above 0x014 is none of the five registers below it. -/
theorem ne_of_toNat_ge {off : Offset} (h : 0x014 ≤ off.toNat) :
    off ≠ 0x000 ∧ off ≠ 0x004 ∧ off ≠ 0x008 ∧ off ≠ 0x00C ∧ off ≠ 0x010 := by
  refine ⟨?_, ?_, ?_, ?_, ?_⟩ <;> rintro rfl <;> revert h <;> decide

theorem inBlocks_iff (off : Offset) :
    inBlocks off = true ↔ 0x100 ≤ off.toNat ∧ off.toNat < 0x300 := decide_eq_true_iff

theorem inDigest_iff (off : Offset) :
    inDigest off = true ↔ 0x300 ≤ off.toNat ∧ off.toNat < 0x340 := decide_eq_true_iff

theorem inBlocks_eq_false {off : Offset} (h : off.toNat < 0x100 ∨ 0x300 ≤ off.toNat) :
    inBlocks off = false := by
  rw [inBlocks, decide_eq_false_iff_not]
  omega

theorem inDigest_eq_false {off : Offset} (h : off.toNat < 0x300 ∨ 0x340 ≤ off.toNat) :
    inDigest off = false := by
  rw [inDigest, decide_eq_false_iff_not]
  omega

theorem windowRead_above {off : Offset} (s : State) (h : 0x014 ≤ off.toNat) :
    windowRead s off =
      if inBlocks off then
        if s.busy then none else some (busWord (s.reg (regAt off)) (wordAt off))
      else if inDigest off then
        if s.busy then none else some (busWord (digest s) (wordAt off))
      else some 0 := by
  obtain ⟨h0, h4, h8, hC, h10⟩ := ne_of_toNat_ge h
  simp only [windowRead, if_neg h0, if_neg h4, if_neg h8, if_neg hC, if_neg h10]

theorem windowRead_block {off : Offset} {s : State} (hb : s.busy = false)
    (h : inBlocks off = true) :
    windowRead s off = some (busWord (s.reg (regAt off)) (wordAt off)) := by
  have hoff : 0x014 ≤ off.toNat := by
    obtain ⟨hlo, -⟩ := (inBlocks_iff off).mp h
    omega
  simp [windowRead_above s hoff, h, hb]

theorem windowRead_digest {off : Offset} {s : State} (hb : s.busy = false)
    (h : inDigest off = true) :
    windowRead s off = some (busWord (digest s) (wordAt off)) := by
  obtain ⟨hlo, -⟩ := (inDigest_iff off).mp h
  simp [windowRead_above s (off := off) (by omega), inBlocks_eq_false (.inr hlo), h, hb]

theorem windowRead_reserved {off : Offset} (s : State) (hlo : 0x014 ≤ off.toNat)
    (hblocks : inBlocks off = false) (hdigest : inDigest off = false) :
    windowRead s off = some 0 := by
  simp [windowRead_above s hlo, hblocks, hdigest]

/-- A write outside CTRL, CMD, STATUS and the block registers is ignored (R36, R41, R42). -/
theorem hostWrite_ignored {off : Offset} (v : Word) (s : State) (h4 : off ≠ 0x004)
    (h8 : off ≠ 0x008) (hC : off ≠ 0x00C) (hblocks : inBlocks off = false) :
    hostWrite off v s = s := by
  rw [hostWrite, if_neg h8, if_neg hC, if_neg]
  simp only [h4, hblocks, false_or, Bool.false_eq_true, not_false_eq_true]

theorem hostWrite_ignored_above {off : Offset} (v : Word) (s : State) (hlo : 0x014 ≤ off.toNat)
    (hblocks : inBlocks off = false) : hostWrite off v s = s := by
  obtain ⟨-, h4, h8, hC, -⟩ := ne_of_toNat_ge hlo
  exact hostWrite_ignored v s h4 h8 hC hblocks

theorem hostWrite_status (v : Word) (s : State) : hostWrite 0x00C v s = writeStatus v s := rfl

theorem hostWrite_ctrl {s : State} (v : Word) (hb : s.busy = false) :
    hostWrite 0x004 v s = writeCtrl v s := by
  simp [hostWrite, hb]

theorem hostWrite_block {off : Offset} {s : State} (v : Word) (hb : s.busy = false)
    (h : inBlocks off = true) :
    hostWrite off v s =
      s.setReg (regAt off) (setBusWord (s.reg (regAt off)) (wordAt off) v) := by
  obtain ⟨hlo, -⟩ := (inBlocks_iff off).mp h
  obtain ⟨-, h4, h8, hC, -⟩ := ne_of_toNat_ge (off := off) (by omega)
  rw [hostWrite, if_neg h8, if_neg hC, if_pos (.inr h), if_neg h4, hb]
  rfl

/-- Settles O51: a reserved offset is no register, in or out of the block registers and DIGEST. -/
theorem reservedOffsetsReadZero : Obligations.ReservedOffsetsReadZero := by
  intro s off v halign hrange
  have hlo : 0x014 ≤ off.toNat := by omega
  have hblocks : inBlocks off = false := inBlocks_eq_false (by omega)
  have hdigest : inDigest off = false := inDigest_eq_false (by omega)
  refine ⟨hostAccess_read_of_some halign (windowRead_reserved s hlo hblocks hdigest), ?_⟩
  rw [hostAccess_write v s halign, hostWrite_ignored_above v s hlo hblocks]

/-- Settles O50: ID's read is a constant and its write is an ignored one. -/
theorem idReadsItsConstant : Obligations.IdReadsItsConstant := by
  intro s v
  refine ⟨⟨_, hostAccess_read_of_some (w := idWord) rfl rfl, rfl⟩, ?_⟩
  rw [hostAccess_write v s rfl, hostWrite_ignored v s (by decide) (by decide) (by decide) rfl]

/-! ### STATUS and CTRL -/

theorem append_toNat {m n : Nat} (x : BitVec m) (y : BitVec n) :
    (x ++ y).toNat = x.toNat * 2 ^ n + y.toNat := by
  rw [BitVec.toNat_append, ← Nat.shiftLeft_add_eq_or_of_lt y.isLt, Nat.shiftLeft_eq]

/-- STATUS as a number, the sum of its fields at their places (R39). -/
theorem statusWord_toNat (s : State) :
    (statusWord s).toNat = s.busy.toNat + 2 * s.done.toNat + 4 * s.err.toNat +
      16 * (hstateBits s.hstate).toNat + 256 * (errcodeBits s.errcode).toNat := by
  simp only [statusWord, append_toNat, BitVec.toNat_ofBool, BitVec.toNat_zero]
  omega

/-- Settles O48: the read returns `statusWord`, and each HSTATE and each ERRCODE has its number. -/
theorem statusReadsItsFields : Obligations.StatusReadsItsFields := by
  intro s
  refine ⟨_, hostAccess_read_of_some (w := statusWord s) rfl rfl, ?_⟩
  rw [statusWord_toNat]
  refine congrArg₂ (· + ·) (congrArg _ ?_) ?_
  · cases s.hstate <;> rfl
  · cases s.errcode <;> rfl

theorem writeStatus_eq (v : Word) (s : State) :
    writeStatus v s = { s with
      done := s.done && !v.getLsbD 1
      err := s.err && !v.getLsbD 2
      errcode := if v.getLsbD 2 then .none else s.errcode
      errcmd := if v.getLsbD 2 then 0 else s.errcmd } := by
  unfold writeStatus
  generalize v.getLsbD 1 = b1
  generalize v.getLsbD 2 = b2
  cases b1 <;> cases b2 <;> simp [clearError]

/-- Settles O47: bits 1 and 2 of the word written act on DONE and the record, whatever BUSY is. -/
theorem statusWriteOneClears : Obligations.StatusWriteOneClears := by
  intro v s
  refine ⟨_, hostAccess_write v s rfl, ?_⟩
  rw [hostWrite_status, writeStatus_eq]
  exact ⟨rfl, rfl, rfl, rfl, rfl, rfl, rfl, rfl, rfl⟩

/-- The four stored bits of CTRL read back as the low four bits of the word written (R37). -/
theorem ctrlWord_writeCtrl (v : Word) (s : State) : ctrlWord (writeCtrl v s) = v &&& 0xF := by
  apply BitVec.eq_of_toNat_eq
  have hmask : v.toNat &&& 15 = v.toNat % 16 := Nat.and_two_pow_sub_one_eq_mod v.toNat 4
  simp only [ctrlWord, writeCtrl_ctrl, BitVec.toNat_setWidth, BitVec.toNat_and,
    BitVec.reduceToNat, hmask]
  omega

/-- Settles O52: CTRL keeps the low four bits of the word written, and the three reads are those of the
map. -/
theorem ctrlReadsBackItsFourBits : Obligations.CtrlReadsBackItsFourBits := by
  intro s v
  refine ⟨fun hb => ?_, hostAccess_read_of_some rfl rfl, hostAccess_read_of_some rfl rfl,
    hostAccess_read_of_some rfl rfl⟩
  refine ⟨writeCtrl v s, _, ?_, rfl,
    hostAccess_read_of_some (w := ctrlWord (writeCtrl v s)) rfl rfl, ctrlWord_writeCtrl v s⟩
  rw [hostAccess_write v s rfl, hostWrite_ctrl v hb]

/-! ### Block register words and DIGEST -/

/-- The word of an offset `base + 4 * w`, for a base that is a multiple of 64 (R84). -/
theorem wordAt_of_toNat {off : Offset} {base w : Nat} (hw : w < 16) (hbase : base % 64 = 0)
    (h : off.toNat = base + 4 * w) : wordAt off = w := by
  unfold wordAt
  omega

theorem wordAt_lt (off : Offset) : wordAt off < 16 := Nat.mod_lt _ (by decide)

theorem regAt_of_toNat {off : Offset} {r : BitVec 3} {w : Nat} (hw : w < 16)
    (h : off.toNat = 0x100 + 0x40 * r.toNat + 4 * w) : regAt off = Reg.ofBits r := by
  have hr : (off.toNat - 0x100) / 64 = r.toNat := by omega
  rw [regAt, hr, BitVec.ofNat_toNat, BitVec.setWidth_eq]

/-- A word is its four bytes, bits 31:24 first (R71). -/
theorem word_eq_bytes (x : Word) :
    x.extractLsb' 24 8 ++ x.extractLsb' 16 8 ++ x.extractLsb' 8 8 ++ x.extractLsb' 0 8 = x := by
  apply BitVec.eq_of_toNat_eq
  simp only [append_toNat, BitVec.extractLsb'_toNat, Nat.shiftRight_eq_div_pow]
  omega

/-- Byte `j` of the written word `w` of a block comes from the word's bits, byte 0 from bits 31:24 (R41). -/
theorem byte_setBusWord_same (b : Block) (x : Word) {w j : Nat} (hw : w < 16) (hj : j < 4) :
    byte (setBusWord b w x) (4 * w + j) = x.extractLsb' (8 * (3 - j)) 8 := by
  have hdiv : (4 * w + j) / 4 = w := by omega
  have hmod : (4 * w + j) % 4 = j := by omega
  rw [byte_setBusWord b w x _ (by omega), if_pos hdiv, hmod]

theorem byte_setBusWord_other (b : Block) (x : Word) {w k : Nat} (hk : k < 64) (hne : k / 4 ≠ w) :
    byte (setBusWord b w x) k = byte b k := by
  rw [byte_setBusWord b w x k hk, if_neg hne]

theorem busWord_setBusWord (b : Block) (x : Word) {w : Nat} (hw : w < 16) :
    busWord (setBusWord b w x) w = x := by
  have h0 : byte (setBusWord b w x) (4 * w) = x.extractLsb' 24 8 :=
    byte_setBusWord_same b x hw (j := 0) (by omega)
  rw [busWord, h0, byte_setBusWord_same b x hw (j := 1) (by omega),
    byte_setBusWord_same b x hw (j := 2) (by omega),
    byte_setBusWord_same b x hw (j := 3) (by omega)]
  exact word_eq_bytes x

/-- Settles O53: the offset names register `r` and word `w`, and a word of a block reads as written. -/
theorem blockWordsReadBackAsWritten : Obligations.BlockWordsReadBackAsWritten := by
  intro s r w v off hb hw hoff
  have hr := r.isLt
  have halign : off.toNat % 4 = 0 := by omega
  have hblocks : inBlocks off = true := (inBlocks_iff off).mpr (by omega)
  have hreg : regAt off = Reg.ofBits r := regAt_of_toNat hw hoff
  have hword : wordAt off = w := wordAt_of_toNat hw (by omega) hoff
  generalize Reg.ofBits r = q at hreg ⊢
  have hwrite : hostWrite off v s = s.setReg q (setBusWord (s.reg q) w v) := by
    rw [hostWrite_block v hb hblocks, hreg, hword]
  have hval : (s.setReg q (setBusWord (s.reg q) w v)).reg q = setBusWord (s.reg q) w v := by
    rw [reg_setReg, if_pos rfl]
  have hbusy : (s.setReg q (setBusWord (s.reg q) w v)).busy = false := hb
  have hread : windowRead (s.setReg q (setBusWord (s.reg q) w v)) off = some v := by
    rw [windowRead_block hbusy hblocks, hreg, hword, hval, busWord_setBusWord _ v hw]
  have hbyte : ∀ j, j < 4 → byte ((s.setReg q (setBusWord (s.reg q) w v)).reg q) (4 * w + j) =
      v.extractLsb' (8 * (3 - j)) 8 := by
    intro j hj
    rw [hval, byte_setBusWord_same _ v hw hj]
  refine ⟨_, _, (hostAccess_write v s halign).trans (congrArg _ hwrite), hbyte 0 (by decide),
    hbyte 1 (by decide), hbyte 2 (by decide), hbyte 3 (by decide), ?_, ?_, rfl,
    hostAccess_read_of_some halign hread, rfl⟩
  · intro k hk hne
    rw [hval, byte_setBusWord_other _ v hk hne]
  · intro p hp
    rw [reg_setReg, if_neg hp]

theorem busWord_zero (w : Nat) : busWord 0 w = 0 := by
  simp only [busWord, byte_zero]
  rfl

/-- Word `w` of DIGEST: 0 where VARIANT = 1 hides it, else word `w` of H (R41). -/
theorem busWord_digest (s : State) {w : Nat} (hw : w < 16) :
    busWord (digest s) w =
      if s.variant = true ∧ 8 ≤ w then 0 else busWord (s.reg .h) w := by
  have hbyte : ∀ j, j < 4 → byte (digest s) (4 * w + j) =
      if s.variant = true ∧ 8 ≤ w then 0 else byte (s.reg .h) (4 * w + j) := by
    intro j hj
    have hhalf : 32 ≤ 4 * w + j ↔ 8 ≤ w := by omega
    rw [byte_digest s _ (by omega)]
    simp only [Bool.and_eq_true, decide_eq_true_eq, hhalf]
  have h0 := hbyte 0 (by omega)
  rw [Nat.add_zero] at h0
  rw [busWord, h0, hbyte 1 (by omega), hbyte 2 (by omega), hbyte 3 (by omega)]
  split <;> rfl

/-- Settles O54: the offset names word `w` of DIGEST, and no write reaches it. -/
theorem digestShowsH : Obligations.DigestShowsH := by
  intro s w off v hb hw hoff
  have halign : off.toNat % 4 = 0 := by omega
  have hdigest : inDigest off = true := (inDigest_iff off).mpr (by omega)
  have hword : wordAt off = w := wordAt_of_toNat hw (by omega) hoff
  constructor
  · refine ⟨_, hostAccess_read_of_some halign (windowRead_digest hb hdigest), ?_⟩
    rw [hword]
    exact busWord_digest s hw
  · rw [hostAccess_write v s halign,
      hostWrite_ignored_above v s (by omega) (inBlocks_eq_false (by omega))]

/-! ### Reset -/

/-- Settles O42: at reset the record is empty, DONE is 0 and no command is pending. -/
theorem invariantHoldsAtReset : Obligations.InvariantHoldsAtReset where
  recordEmpty := ⟨fun _ => rfl, fun _ => rfl⟩
  record := rfl
  doneNotBusy := fun _ => rfl
  pendingChecked := fun _ h => nomatch h
  resetIdle := fun _ => rfl

/-- The words below 0x014 other than ID are zero at reset, and so are the words of a zero register file. -/
theorem windowRead_reset {off : Offset} (h : off ≠ 0) : windowRead .reset off = some 0 := by
  have hreg : ∀ r, State.reset.reg r = 0 := fun r => by cases r <;> rfl
  have hbusy : State.reset.busy = false := rfl
  have hstatus : statusWord .reset = 0 := by decide
  have hdigest : busWord (digest .reset) (wordAt off) = 0 := by
    rw [busWord_digest .reset (wordAt_lt off), hreg, busWord_zero, ite_self]
  have hctrl : ctrlWord .reset = 0 := rfl
  have herrcmd : State.reset.errcmd = 0 := rfl
  rw [windowRead, if_neg h, hctrl, hstatus, herrcmd, hdigest, hreg, busWord_zero, hbusy]
  simp

/-- A read does not see what an earlier read returned. -/
theorem windowRead_withReadData (s : State) (x : Word) (off : Offset) :
    windowRead { s with readData := x } off = windowRead s off := rfl

/-- Settles O60: every window word but ID is 0 at reset. -/
theorem resetWindowReadsZeroButId : Obligations.ResetWindowReadsZeroButId := by
  intro off x halign hoff
  exact hostAccess_read_of_some halign
    ((windowRead_withReadData .reset x off).trans (windowRead_reset hoff))

end Sys2Proof.Machine
end

section
/-! The proofs of the family 20_memory.md: which accesses are performed (R73), and what a command leaves
as it was in the window (10_state.md section 3; R232, R240). -/

namespace Sys2Proof.Machine

/-! ### Aligned accesses -/

theorem aligned_iff (a : Access) : aligned a = true ↔ a.width = 32 ∧ a.off.toNat % 4 = 0 :=
  decide_eq_true_iff

theorem hostAccess_of_not_aligned {a : Access} (s : State) (h : ¬ aligned a = true) :
    hostAccess a s = .fault .busError :=
  if_neg h

theorem hostAccess_of_aligned {a : Access} (s : State) (h : aligned a = true) :
    ∃ t, hostAccess a s = .next t := by
  rcases hostAccess_cases a s with ⟨hn, -⟩ | ⟨-, -, hread⟩ | ⟨v, -, -, hwrite⟩
  · exact absurd (h.symm.trans hn) Bool.noConfusion
  · exact ⟨_, hread⟩
  · exact ⟨_, hwrite⟩

/-- Settles O56: the bus error and the performed access are the two sides of the test of R73. -/
theorem onlyAlignedWordAccessesArePerformed : Obligations.OnlyAlignedWordAccessesArePerformed := by
  intro a s
  constructor
  · intro hbad
    refine hostAccess_of_not_aligned s fun h => ?_
    obtain ⟨hwidth, hoff⟩ := (aligned_iff a).mp h
    exact hbad.elim (· hwidth) (· hoff)
  · exact fun hwidth hoff => hostAccess_of_aligned s ((aligned_iff a).mpr ⟨hwidth, hoff⟩)

/-! ### The frame of a completed command -/

/-- `o` is the completion of a command from `s`, with the frame of `rs` and HSTATE `x`. -/
def CompletesWith (rs : List Reg) (x : HState) (s : State)
    (o : Host.Outcome State Fault Refusal) : Prop :=
  ∃ t, o = .next t ∧ CompletedFrame rs x s t

theorem writeResult_completesWith (rd : Reg) (v : Block) (s : State) :
    CompletesWith [rd] s.hstate s (writeResult rd v s) := by
  obtain ⟨t, ht, -, hframe⟩ := writeResult_next rd v s
  exact ⟨t, ht, hframe⟩

theorem setReg_setChain_setHState_frame (v : Block) (c : Chain) (x : HState) (s : State) :
    CompletedFrame [.m, .h, .n, .sigma] x s
      (finish (((s.setReg .m v).setChain c).setHState x)) := by
  refine completed_of_update _ x s _ ?_ rfl
  intro r hr
  simp only [List.mem_cons, List.not_mem_nil, or_false, not_or] at hr
  simp [hr]

/-- The frame of HOUTER's writes: the chain state, then KEY and M zeroed (R214, R216). -/
theorem setChain_zeroKey_frame (c : Chain) (x : HState) (s : State) :
    CompletedFrame [.h, .n, .sigma, .key, .m] x s
      (finish ((((s.setChain c).setReg .key 0).setReg .m 0).setHState x)) := by
  refine completed_of_update _ x s _ ?_ rfl
  intro r hr
  simp only [List.mem_cons, List.not_mem_nil, or_false, not_or] at hr
  simp [hr]

theorem execKhash_completesWith {s : State} (h : s.hstate = .done) :
    CompletesWith [.key] .done s (execKhash s) := by
  rw [execKhash_ok s h, ← h]
  exact writeResult_completesWith .key (s.reg .h) s

theorem execHblk_completesWith {s : State} (h : s.hstate = .accum) :
    CompletesWith [.h, .n, .sigma] .accum s (execHblk s) := by
  rw [execHblk_ok s h, ← h]
  exact ⟨_, rfl, chain_frame _ s⟩

theorem execWipe_completesWith (s : State) :
    CompletesWith [.h, .n, .sigma, .m, .iv, .key, .t0, .t1] .idle s (execWipe s) := by
  refine ⟨_, rfl, ?_, rfl, rfl, rfl, rfl, rfl, rfl, rfl, rfl, rfl, rfl, rfl⟩
  intro r hr
  cases r <;> simp at hr

/-- A well-formed command in its required HSTATE completes and changes, outside the scratch and the draw
counter, only its written registers, HSTATE as R190's table says, BUSY and DONE (R240, R249). -/
theorem exec_completesWith {i : Instr} {s : State} (hwf : i.WellFormed)
    (hseq : sequenceHolds i s.hstate) :
    CompletesWith (writtenRegs i) (hstateAfter i s.hstate) s (exec i s) := by
  cases i with
  | nop => exact ⟨_, rfl, completed_of_update [] s.hstate s s (fun _ _ => rfl) rfl⟩
  | mov rd ra => exact writeResult_completesWith rd _ s
  | clr rd => exact writeResult_completesWith rd _ s
  | xor rd ra rb => exact writeResult_completesWith rd _ s
  | add rd ra rb => exact writeResult_completesWith rd _ s
  | addi rd ra imm => exact writeResult_completesWith rd _ s
  | sbox rd ra => exact writeResult_completesWith rd _ s
  | perm rd ra => exact writeResult_completesWith rd _ s
  | lin rd ra => exact writeResult_completesWith rd _ s
  | lps rd ra => exact writeResult_completesWith rd _ s
  | ldc rd imm =>
    obtain ⟨h1, h12⟩ := of_decide_eq_true hwf
    simp only [exec, execLdc_ok rd imm s h1 h12]
    exact writeResult_completesWith rd _ s
  | e rd ra rb => exact writeResult_completesWith rd _ s
  | g rd ra rb => exact writeResult_completesWith rd _ s
  | pad rd ra imm =>
    simp only [exec, execPad_ok rd ra imm s (of_decide_eq_true hwf)]
    exact writeResult_completesWith rd _ s
  | hinit => exact ⟨_, rfl, chain_hstate_frame (chainInit (s.reg .iv)) .accum s⟩
  | hblk => exact execHblk_completesWith (hseq .accum rfl)
  | hfin imm =>
    exact ⟨_, execHfin_ok imm s (of_decide_eq_true hwf) (hseq .accum rfl),
      chain_hstate_frame _ .done s⟩
  | hresume => exact ⟨_, rfl, completed_of_update [] .accum s _ (fun _ _ => rfl) rfl⟩
  | kpad align klen =>
    simp only [exec, execKpad_ok align klen s (of_decide_eq_true hwf)]
    exact writeResult_completesWith .key _ s
  | khash => exact execKhash_completesWith (hseq .done rfl)
  | hipad => exact ⟨_, rfl, setReg_setChain_setHState_frame _ (chainInit 0) .accum s⟩
  | houter => exact ⟨_, execHouter_ok s (hseq .done rfl), setChain_zeroKey_frame _ .done s⟩
  | wipe => exact execWipe_completesWith s

/-! ### The frame through the window -/

/-- DIGEST is a view of H and CTRL alone (R41). -/
theorem digest_congr {s t : State} (hctrl : t.ctrl = s.ctrl) (hh : t.reg .h = s.reg .h) :
    digest t = digest s := by
  have hvariant : t.variant = s.variant := congrArg (·.getLsbD 2) hctrl
  rw [digest, digest, hvariant, hh]

/-- With BUSY = 0 a window word other than STATUS depends on CTRL, ERRCMD, the register at its offset and,
in DIGEST, on H (10_state.md section 3). -/
theorem windowRead_congr {s t : State} {off : Offset} (hs : s.busy = false) (ht : t.busy = false)
    (hstatus : off ≠ 0x00C) (hctrl : t.ctrl = s.ctrl) (herrcmd : t.errcmd = s.errcmd)
    (hblock : inBlocks off = true → t.reg (regAt off) = s.reg (regAt off))
    (hdigest : inDigest off = true → t.reg .h = s.reg .h) :
    windowRead t off = windowRead s off := by
  by_cases hb : inBlocks off = true
  · rw [windowRead_block ht hb, windowRead_block hs hb, hblock hb]
  by_cases hd : inDigest off = true
  · rw [windowRead_digest ht hd, windowRead_digest hs hd, digest_congr hctrl (hdigest hd)]
  · simp only [windowRead, ctrlWord, if_neg hstatus, if_neg hb, if_neg hd, hctrl, herrcmd]

/-- Settles O37: the words outside `showsResultOf` are views of fields in the command's frame. -/
theorem otherWindowWordsReadAsBefore : Obligations.OtherWindowWordsReadAsBefore := by
  intro i s off hwf hseq hshows
  obtain ⟨t, ht, hframe⟩ := exec_completesWith hwf hseq
  have hbusy : t.busy = false := by rw [State.busy, hframe.pending, Option.isSome_none]
  refine ⟨t, ht, windowRead_congr rfl hbusy ?_ hframe.ctrl hframe.errcmd ?_ ?_⟩
  · exact fun h => hshows (.inl h)
  · exact fun hb => hframe.regs _ fun hw => hshows (.inr (.inl ⟨hb, hw⟩))
  · exact fun hd => hframe.regs _ fun hw => hshows (.inr (.inr ⟨hd, hw⟩))

end Sys2Proof.Machine
end

section
/-! The proofs of the family 30_encoding.md: decoding and encoding are inverse (R90 to R92, R94),
the reserved opcodes (R95), and the immediates out of range (R93). -/

namespace Sys2Proof

/-! ### KPAD's immediate (R211) -/

/-- `klen | ALIGN<<7` gives its ALIGN and klen back, and its bits 9:8 are clear. -/
theorem kpadImm_fields (align : Bool) (klen : BitVec 7) :
    (0#2 ++ BitVec.ofBool align ++ klen)[7] = align ∧
      (0#2 ++ BitVec.ofBool align ++ klen).extractLsb' 0 7 = klen ∧
      (0#2 ++ BitVec.ofBool align ++ klen).extractLsb' 8 2 = 0 := by
  refine ⟨?_, BitVec.extractLsb'_append_eq_right, ?_⟩
  · rw [BitVec.getElem_append]
    cases align <;> rfl
  · rw [BitVec.extractLsb'_append_eq_of_le (by decide)]
    exact BitVec.extractLsb'_append_eq_left

/-- An immediate with bits 9:8 clear is the `klen | ALIGN<<7` of its own bits. -/
theorem kpadImm_eq (imm : BitVec 10) (h : imm.extractLsb' 8 2 = 0) :
    0#2 ++ BitVec.ofBool imm[7] ++ imm.extractLsb' 0 7 = imm := by
  have halign : BitVec.ofBool imm[7] = imm.extractLsb' 7 1 := by
    ext i hi
    obtain rfl : i = 0 := by omega
    simp
  calc 0#2 ++ BitVec.ofBool imm[7] ++ imm.extractLsb' 0 7
      = imm.extractLsb' 8 2 ++ imm.extractLsb' 7 1 ++ imm.extractLsb' 0 7 := by rw [h, halign]; rfl
    _ = imm.extractLsb' 7 3 ++ imm.extractLsb' 0 7 :=
      congrArg (· ++ imm.extractLsb' 0 7)
        (BitVec.extractLsb'_append_extractLsb'_eq_extractLsb' rfl)
    _ = imm.extractLsb' 0 10 := BitVec.extractLsb'_append_extractLsb'_eq_extractLsb' rfl
    _ = imm := BitVec.extractLsb'_eq_self

/-! ### Opcodes and forms (R92, R94, R95) -/

/-- The opcodes of R94, by form. -/
def opcodesOf (form : Form) : List (BitVec 8) :=
  match form with
  | .none => [0x00, 0x20, 0x21, 0x23, 0x31, 0x32, 0x33, 0x3F]
  | .d => [0x02]
  | .da => [0x01, 0x06, 0x07, 0x08, 0x09]
  | .dab => [0x03, 0x04, 0x10, 0x11]
  | .dai => [0x05, 0x18]
  | .di => [0x0A]
  | .i => [0x22, 0x30]

theorem formOf_eq_some_iff (op : BitVec 8) (form : Form) :
    formOf op = some form ↔ op ∈ opcodesOf form := by
  cases form <;> revert op <;> decide

theorem formOf_eq_none_iff (op : BitVec 8) :
    formOf op = none ↔ Machine.reservedOpcode op.toNat := by
  unfold Machine.reservedOpcode
  revert op
  decide

theorem reservedClear_iff (form : Form) (f : Fields) : reservedClear form f = true ↔
    f.res = 0 ∧ unusedClear form f = true ∧ (f.op = 0x30 → f.imm.extractLsb' 8 2 = 0) := by
  simp only [reservedClear, Bool.and_eq_true, Bool.or_eq_true, beq_iff_eq, bne_iff_ne, and_assoc,
    ne_eq, Decidable.imp_iff_not_or]

/-! ### Commands and fields -/

theorem assemble_fieldsOf (i : Instr) : assemble (fieldsOf i) = i := by
  cases i with
  | kpad align klen =>
    obtain ⟨halign, hklen, -⟩ := kpadImm_fields align klen
    simp [assemble, fieldsOf, halign, hklen]
  | _ => simp [assemble, fieldsOf]

theorem formOf_fieldsOf (i : Instr) :
    ∃ form, formOf (fieldsOf i).op = some form ∧ reservedClear form (fieldsOf i) = true := by
  cases i with
  | kpad align klen =>
    obtain ⟨-, -, hhigh⟩ := kpadImm_fields align klen
    exact ⟨.i, rfl, (reservedClear_iff _ _).mpr ⟨rfl, rfl, fun _ => hhigh⟩⟩
  | _ => exact ⟨_, rfl, rfl⟩

/-- With the reserved bits clear, every field of a word is a literal of its form or an operand of
its command, so the command gives the fields back. -/
theorem fieldsOf_assemble {f : Fields} {form : Form} (hform : formOf f.op = some form)
    (hclear : reservedClear form f = true) : fieldsOf (assemble f) = f := by
  obtain ⟨op, rd, ra, rb, imm, res⟩ := f
  obtain ⟨hres, hunused, hkpad⟩ := (reservedClear_iff form _).mp hclear
  obtain rfl : res = 0 := hres
  have hop := (formOf_eq_some_iff op form).mp hform
  cases form <;>
    simp only [unusedClear, Bool.and_eq_true, beq_iff_eq, and_assoc] at hunused <;>
    simp only [opcodesOf, List.mem_cons, List.not_mem_nil, or_false] at hop
  case none =>
    obtain ⟨rfl, rfl, rfl, rfl⟩ := hunused
    rcases hop with rfl | rfl | rfl | rfl | rfl | rfl | rfl | rfl <;> rfl
  case d =>
    obtain ⟨rfl, rfl, rfl⟩ := hunused
    subst hop
    simp [assemble, fieldsOf]
  case da =>
    obtain ⟨rfl, rfl⟩ := hunused
    rcases hop with rfl | rfl | rfl | rfl | rfl <;> simp [assemble, fieldsOf]
  case dab =>
    subst hunused
    rcases hop with rfl | rfl | rfl | rfl <;> simp [assemble, fieldsOf]
  case dai =>
    subst hunused
    rcases hop with rfl | rfl <;> simp [assemble, fieldsOf]
  case di =>
    obtain ⟨rfl, rfl⟩ := hunused
    subst hop
    simp [assemble, fieldsOf]
  case i =>
    obtain ⟨rfl, rfl, rfl⟩ := hunused
    rcases hop with rfl | rfl
    · rfl
    · simp [assemble, fieldsOf, kpadImm_eq imm (hkpad rfl)]

/-! ### Decoding and encoding -/

/-- Settles O2: the fields of a command have a form and clear reserved bits, and assemble to it. -/
theorem decodeOfEncodeIsIdentity : Obligations.DecodeOfEncodeIsIdentity := by
  intro i
  obtain ⟨form, hform, hclear⟩ := formOf_fieldsOf i
  rw [encode, decode_toWord, hform]
  simp only [hclear, if_true, assemble_fieldsOf]

/-- Settles O3: the fields of a word that decodes are those of its command. -/
theorem encodeOfDecodeIsIdentity : Obligations.EncodeOfDecodeIsIdentity := by
  intro w i h
  obtain ⟨form, hform, hclear, rfl⟩ := decode_ok w i h
  rw [encode, fieldsOf_assemble hform hclear, Fields.toWord_ofWord]

theorem decode_illegalOp_iff (w : Word) :
    decode w = .error .illegalOp ↔ formOf (Fields.ofWord w).op = none := by
  simp only [decode]
  cases formOf (Fields.ofWord w).op with
  | none => simp
  | some form => by_cases hclear : reservedClear form (Fields.ofWord w) = true <;> simp [hclear]

/-- Settles O4: an opcode has no form exactly when it is in the ranges of R95. -/
theorem reservedOpcodesAreIllegal : Obligations.ReservedOpcodesAreIllegal := by
  intro w
  rw [decode_illegalOp_iff, formOf_eq_none_iff, Fields.op_toNat]

/-- Settles O1: each word is the encoding of the command printed beside it. -/
theorem knownWordsDecode : Obligations.KnownWordsDecode :=
  ⟨decodeOfEncodeIsIdentity (.xor .t0 .h .n), decodeOfEncodeIsIdentity (.addi .n .n 512),
    decodeOfEncodeIsIdentity (.ldc .t0 1), decodeOfEncodeIsIdentity (.e .t1 .t0 .t1),
    decodeOfEncodeIsIdentity (.g .h .m .n), decodeOfEncodeIsIdentity (.pad .t0 .m 504),
    decodeOfEncodeIsIdentity (.hfin 504), decodeOfEncodeIsIdentity (.kpad true 32),
    decodeOfEncodeIsIdentity .houter, decodeOfEncodeIsIdentity .wipe⟩

end Sys2Proof

namespace Sys2Proof.Machine

/-! ### Immediates out of range (R93) -/

/-- Settles O23: only LDC, PAD, HFIN and KPAD have a range, and each raises its error before any
other test. -/
theorem outOfRangeImmediatesAreRejected : Obligations.OutOfRangeImmediatesAreRejected := by
  intro i s h
  cases i with
  | ldc rd imm =>
    rw [exec, execLdc_not rd imm s fun hr => h (decide_eq_true hr)]
    exact raise_next .immRange _ s
  | pad rd ra imm =>
    rw [exec, execPad_not rd ra imm s (Nat.not_le.mp fun hr => h (decide_eq_true hr))]
    exact raise_next .immRange _ s
  | hfin imm =>
    rw [exec, execHfin_range imm s (Nat.not_le.mp fun hr => h (decide_eq_true hr))]
    exact raise_next .immRange _ s
  | kpad align klen =>
    rw [exec, execKpad_not align klen s fun hr => h (decide_eq_true hr)]
    exact raise_next .keyLen _ s
  | _ => exact absurd rfl h

end Sys2Proof.Machine
end

section
/-! The proofs of the family 40_transform_tables.md: the lane table of R113 against the rows of the
lane map (R112), and LDC (R116). -/

namespace Sys2Proof.Machine

/-! ### The lane map by its rows (R112) -/

/-- The XOR of the rows from `A[i]` on that `v` selects: what is left of the lane map after its
first `i` rows. -/
def laneMapFrom (i : Nat) (v : Lane) : Lane := selectRows (romARows.drop i) (64 - i) v

theorem laneMap_eq_laneMapFrom (v : Lane) : laneMap v = laneMapFrom 0 v := rfl

theorem laneMapFrom_end (v : Lane) : laneMapFrom 64 v = 0 := rfl

/-- Row `A[i]` answers to bit `63 - i`. -/
theorem laneMapFrom_succ (v : Lane) {i : Nat} (h : i < 64) :
    laneMapFrom i v = (if v.getLsbD (63 - i) then romA i else 0) ^^^ laneMapFrom (i + 1) v := by
  have hi : i < romARows.length := h
  have hrow : romA i = romARows[i] := List.getD_eq_getElem _ _ hi
  have hbit : 64 - i = 63 - i + 1 := by omega
  have hrest : 64 - (i + 1) = 63 - i := by omega
  rw [laneMapFrom, laneMapFrom, List.drop_eq_getElem_cons hi, hbit, hrest, selectRows, hrow]

/-! ### The lane table by its rows (R113) -/

/-- The part of the look-up `LT[j][b]` that bits 0 to `n - 1` of `b` give. -/
def laneTableLow (n j : Nat) (b : Byte) : Lane :=
  (List.range n).foldl (fun acc t => if b.getLsbD t then acc ^^^ romA (8 * j + 7 - t) else acc) 0

theorem laneTable_eq_laneTableLow (j : Nat) (b : Byte) : laneTable j b = laneTableLow 8 j b := rfl

theorem laneTableLow_succ (n j : Nat) (b : Byte) :
    laneTableLow (n + 1) j b =
      laneTableLow n j b ^^^ (if b.getLsbD n then romA (8 * j + 7 - n) else 0) := by
  simp only [laneTableLow, List.range_succ, List.foldl_append, List.foldl_cons, List.foldl_nil]
  split <;> simp

/-- The low `n` bits of byte `j` of a lane select the `n` rows that end at `A[8j + 7]`. -/
theorem laneMapFrom_eq_laneTableLow (v : Lane) {j n : Nat} (hj : j < 8) (hn : n ≤ 8) :
    laneMapFrom (8 * (j + 1) - n) v =
      laneTableLow n j (v.extractLsb' (8 * (7 - j)) 8) ^^^ laneMapFrom (8 * (j + 1)) v := by
  induction n with
  | zero => simp [laneTableLow]
  | succ n ih =>
    have hrow : 8 * (j + 1) - (n + 1) = 8 * j + 7 - n := by omega
    have hnext : 8 * j + 7 - n + 1 = 8 * (j + 1) - n := by omega
    have hbit : (v.extractLsb' (8 * (7 - j)) 8).getLsbD n = v.getLsbD (63 - (8 * j + 7 - n)) := by
      rw [BitVec.getLsbD_extractLsb', decide_eq_true (show n < 8 by omega), Bool.true_and]
      congr 1
      omega
    rw [hrow, laneMapFrom_succ v (by omega), hnext, ih (by omega), laneTableLow_succ, hbit]
    ac_rfl

/-- Byte `j` of a lane selects the eight rows from `A[8j]` on: one table look-up. -/
theorem laneMapFrom_eq_laneTable (v : Lane) {j : Nat} (hj : j < 8) :
    laneMapFrom (8 * j) v =
      laneTable j (v.extractLsb' (8 * (7 - j)) 8) ^^^ laneMapFrom (8 * (j + 1)) v :=
  laneMapFrom_eq_laneTableLow v hj (Nat.le_refl 8)

/-- The first `n` look-ups give the lane map's first `8n` rows. -/
theorem laneMap_eq_lookups (v : Lane) {n : Nat} (hn : n ≤ 8) :
    laneMap v =
      (List.range n).foldl (fun acc j => acc ^^^ laneTable j (v.extractLsb' (8 * (7 - j)) 8)) 0 ^^^
        laneMapFrom (8 * n) v := by
  induction n with
  | zero => simp [laneMap_eq_laneMapFrom]
  | succ n ih =>
    rw [ih (by omega), laneMapFrom_eq_laneTable v (by omega), List.range_succ, List.foldl_append,
      List.foldl_cons, List.foldl_nil, BitVec.xor_assoc]

/-- Settles O16: after eight look-ups no row of the lane map is left; the spot values are computed. -/
theorem laneMapIsEightTableLookups : Obligations.LaneMapIsEightTableLookups := by
  refine ⟨fun v => ?_, by decide⟩
  rw [laneMap_eq_lookups v (Nat.le_refl 8), laneMapFrom_end]
  exact BitVec.xor_zero

/-! ### LDC (R116) -/

/-- Settles O18: in its range LDC writes the one value `ROM_C[imm]`. -/
theorem ldcLoadsTheConstant : Obligations.LdcLoadsTheConstant := by
  intro s rd imm h1 h12
  rw [exec, execLdc_ok rd imm s h1 h12]
  exact writeResult_next rd _ s

end Sys2Proof.Machine
end

section
/-! The proofs of the family 41_block_algebra.md: XOR, ADD and ADDI (R130, R135, R141), the S, P and L
transforms (R131 to R133) and their composition LPS (R134). -/

namespace Sys2Proof.Machine

/-! ### What each command writes -/

theorem exec_xor_next (rd ra rb : Reg) (s : State) :
    ∃ t, exec (.xor rd ra rb) s = .next t ∧ t.reg rd = xorBlock (s.reg ra) (s.reg rb) ∧
      CompletedFrame [rd] s.hstate s t :=
  binary_next xorBlock rd ra rb s

theorem exec_sbox_next (rd ra : Reg) (s : State) :
    ∃ t, exec (.sbox rd ra) s = .next t ∧ t.reg rd = subst (s.reg ra) ∧
      CompletedFrame [rd] s.hstate s t :=
  unary_next subst rd ra s

theorem exec_perm_next (rd ra : Reg) (s : State) :
    ∃ t, exec (.perm rd ra) s = .next t ∧ t.reg rd = permute (s.reg ra) ∧
      CompletedFrame [rd] s.hstate s t :=
  unary_next permute rd ra s

theorem exec_lin_next (rd ra : Reg) (s : State) :
    ∃ t, exec (.lin rd ra) s = .next t ∧ t.reg rd = linear (s.reg ra) ∧
      CompletedFrame [rd] s.hstate s t :=
  unary_next linear rd ra s

theorem CompletedFrame.reg_of_ne {rd r : Reg} {x : HState} {s t : State}
    (h : CompletedFrame [rd] x s t) (hr : r ≠ rd) : t.reg r = s.reg r :=
  h.regs r (mt List.mem_singleton.mp hr)

/-! ### XOR (R130) -/

/-- Settles O9: the block XOR is the XOR of the bytes. -/
theorem xorIsBytewise : Obligations.XorIsBytewise := by
  intro s rd ra rb
  obtain ⟨t, ht, hval, hframe⟩ := exec_xor_next rd ra rb s
  exact ⟨t, ht, fun k _ => hval ▸ byte_xorBlock _ _ k, hframe⟩

/-! ### ADD and ADDI (R135, R141) -/

theorem add512_toNat (a b : Block) : (add512 a b).toNat = (a.toNat + b.toNat) % 2 ^ 512 :=
  blk_toNat _

/-- Taking an integer modulo 2^512 loses none of its low 64 base-256 digits (R11). -/
theorem byte_blk_toNat (x : Nat) {k : Nat} (hk : k < 64) :
    (byte (blk x) k).toNat = x / 256 ^ (63 - k) % 256 := by
  have hpow : (2 : Nat) ^ 512 = 256 ^ (63 - k) * 256 ^ (k + 1) := by
    rw [← Nat.pow_add, show 63 - k + (k + 1) = 64 by omega, show (256 : Nat) = 2 ^ 8 from rfl,
      ← Nat.pow_mul]
  rw [byte_toNat, blk_toNat, hpow, Nat.mod_mul_right_div_self,
    Nat.mod_mod_of_dvd _ (dvd_pow_self 256 k.succ_ne_zero)]

/-- What the low `n` bytes of a sum pass on to the bytes above them is their serial carry. -/
theorem add_div_eq_add_carryAfter (a b : Block) {n : Nat} (hn : n ≤ 64) :
    (a.toNat + b.toNat) / 256 ^ n =
      a.toNat / 256 ^ n + b.toNat / 256 ^ n + carryAfter a b n := by
  induction n with
  | zero => simp [carryAfter]
  | succ n ih =>
    have hdigit : 63 - (63 - n) = n := by omega
    rw [carryAfter, byte_toNat, byte_toNat, hdigit, Nat.pow_succ]
    simp only [← Nat.div_div_eq_div_mul]
    rw [ih (by omega)]
    omega

theorem byte_add512_toNat (a b : Block) {k : Nat} (hk : k < 64) :
    (byte (add512 a b) k).toNat =
      ((byte a k).toNat + (byte b k).toNat + carryAfter a b (63 - k)) % 256 := by
  rw [add512, byte_blk_toNat _ hk, add_div_eq_add_carryAfter a b (by omega), byte_toNat, byte_toNat]
  omega

/-- Settles O10: the sum divided by a power of 256 is the sum of the quotients and the serial carry. -/
theorem addWrapsAndCarriesByBytes : Obligations.AddWrapsAndCarriesByBytes := by
  intro s rd ra rb
  obtain ⟨t, ht, hval, hframe⟩ := binary_next add512 rd ra rb s
  refine ⟨t, ht, ?_, fun k hk => ?_, hframe⟩
  · rw [hval, add512_toNat]
  · rw [hval, byte_add512_toNat _ _ hk]

theorem immBlock_toNat (imm : BitVec 10) : (immBlock imm).toNat = imm.toNat :=
  blk_toNat_of_lt _ (imm.isLt.trans (pow_lt_pow_right₀ one_lt_two (by decide)))

/-- Settles O11: every immediate is below 2^512, so its block has its value. -/
theorem addiAddsTheImmediate : Obligations.AddiAddsTheImmediate := by
  intro s rd ra imm
  obtain ⟨t, ht, hval, hframe⟩ := unary_next (fun a => add512 a (immBlock imm)) rd ra s
  refine ⟨t, ht, ?_, hframe⟩
  rw [hval, add512_toNat, immBlock_toNat]

/-! ### SBOX (R131) -/

/-- Settles O12: the bytes of S(a) are the entries of ROM_S at the bytes of a. -/
theorem sboxSubstitutesEveryByte : Obligations.SboxSubstitutesEveryByte := by
  intro s rd ra
  obtain ⟨t, ht, hval, hframe⟩ := exec_sbox_next rd ra s
  exact ⟨t, ht, fun k hk => hval ▸ byte_subst _ k hk, hframe⟩

/-! ### PERM (R132) -/

theorem romTau_lt {k : Nat} (hk : k < 64) : romTau k < 64 := by
  rw [romTau]
  omega

/-- ROM_TAU transposes the 8 by 8 matrix of the bytes, so it is its own inverse (R111). -/
theorem romTau_romTau {k : Nat} (hk : k < 64) : romTau (romTau k) = k := by
  simp only [romTau]
  omega

/-- Settles O13: the second reading is the first at `ROM_TAU[k]`, ROM_TAU being its own inverse. -/
theorem permMovesEveryByte : Obligations.PermMovesEveryByte := by
  intro s rd ra
  obtain ⟨t, ht, hval, hframe⟩ := exec_perm_next rd ra s
  refine ⟨t, ht, fun k hk => ?_, fun k hk => ?_, hframe⟩
  · rw [hval, byte_permute _ k hk]
  · rw [hval, byte_permute _ _ (romTau_lt hk), romTau_romTau hk]

/-! ### LIN (R133, R112) -/

/-- The low `n` bits of a lane select the last `n` rows of ROM_A, bit p the row A[63 - p]. -/
theorem laneMapFrom_eq_foldl_rows (v : Lane) {n : Nat} (hn : n ≤ 64) :
    laneMapFrom (64 - n) v =
      (List.range n).foldl (fun acc p => if v.getLsbD p then acc ^^^ romA (63 - p) else acc) 0 := by
  induction n with
  | zero => exact laneMapFrom_end v
  | succ n ih =>
    have hrow : 64 - (n + 1) = 63 - n := by omega
    have hbit : 63 - (63 - n) = n := by omega
    have hrest : 63 - n + 1 = 64 - n := by omega
    rw [hrow, laneMapFrom_succ v (by omega), hbit, hrest, ih (by omega), List.range_succ,
      List.foldl_append, List.foldl_cons, List.foldl_nil, BitVec.xor_comm]
    split
    · rfl
    · exact BitVec.xor_zero

/-- Settles O14: the rows selected from bit 63 down are the rows selected from bit 0 up. -/
theorem linMapsEveryLane : Obligations.LinMapsEveryLane := by
  intro s rd ra
  obtain ⟨t, ht, hval, hframe⟩ := exec_lin_next rd ra s
  refine ⟨t, ht, fun j hj => ?_, hframe⟩
  rw [hval, lane_linear _ j hj, laneMap_eq_laneMapFrom]
  exact laneMapFrom_eq_foldl_rows _ (Nat.le_refl 64)

/-! ### Linearity of L (R144) -/

theorem selectRows_xor (rows : List Lane) (n : Nat) (v w : Lane) :
    selectRows rows n (v ^^^ w) = selectRows rows n v ^^^ selectRows rows n w := by
  induction rows generalizing n with
  | nil => simp [selectRows]
  | cons a rows ih =>
    cases n with
    | zero => simp [selectRows]
    | succ n =>
      have hrow : (if (v ^^^ w).getLsbD n then a else 0) =
          (if v.getLsbD n then a else 0) ^^^ (if w.getLsbD n then a else 0) := by
        rw [BitVec.getLsbD_xor]
        cases v.getLsbD n <;> cases w.getLsbD n <;> simp
      rw [selectRows, selectRows, selectRows, ih, hrow]
      ac_rfl

theorem linear_xorBlock (a b : Block) :
    linear (xorBlock a b) = xorBlock (linear a) (linear b) := by
  refine eq_of_lanes _ _ fun j hj => ?_
  rw [lane_xorBlock, lane_linear _ j hj, lane_linear _ j hj, lane_linear _ j hj, lane_xorBlock]
  exact selectRows_xor romARows 64 _ _

/-- Settles O17: each bit of an XOR selects its row once for each of the two lanes that have it. -/
theorem linIsLinear : Obligations.LinIsLinear := by
  intro s
  obtain ⟨t1, h1, hxor, -⟩ := exec_xor_next .t0 .m .iv s
  obtain ⟨t2, h2, hlin, -⟩ := exec_lin_next .t0 .t0 t1
  obtain ⟨t3, h3, hm, hframe3⟩ := exec_lin_next .m .m s
  obtain ⟨t4, h4, hiv, hframe4⟩ := exec_lin_next .iv .iv t3
  obtain ⟨t5, h5, hxor', -⟩ := exec_xor_next .t0 .m .iv t4
  have hm4 : t4.reg .m = t3.reg .m := hframe4.reg_of_ne (by decide)
  have hiv3 : t3.reg .iv = s.reg .iv := hframe3.reg_of_ne (by decide)
  refine ⟨t1, t2, t3, t4, t5, h1, h2, h3, h4, h5, ?_⟩
  calc t2.reg .t0
      = linear (xorBlock (s.reg .m) (s.reg .iv)) := by rw [hlin, hxor]
    _ = xorBlock (linear (s.reg .m)) (linear (s.reg .iv)) := linear_xorBlock _ _
    _ = t5.reg .t0 := by rw [hxor', hm4, hm, hiv, hiv3]

/-! ### LPS (R134) -/

/-- Settles O15: the three commands leave L(P(S(a))) in rd, and no other register is written. -/
theorem lpsIsSboxThenPermThenLin : Obligations.LpsIsSboxThenPermThenLin := by
  intro s rd ra
  obtain ⟨t, ht, hlps, hframe⟩ := unary_next lps rd ra s
  obtain ⟨t1, h1, hs, hframe1⟩ := exec_sbox_next rd ra s
  obtain ⟨t2, h2, hp, hframe2⟩ := exec_perm_next rd rd t1
  obtain ⟨t3, h3, hl, hframe3⟩ := exec_lin_next rd rd t2
  refine ⟨t, t1, t2, t3, ht, h1, h2, h3, fun r => ?_, hframe⟩
  by_cases hr : r = rd
  · rw [hr, hlps, hl, hp, hs, lps]
  · rw [hframe.reg_of_ne hr, hframe3.reg_of_ne hr, hframe2.reg_of_ne hr, hframe1.reg_of_ne hr]

end Sys2Proof.Machine
end

section
/-! The proofs of the family 42_compression.md: E and its unrolled form (R160, R163), G (R162, R164),
their frame (R165), and the primitive commands HBLK is composed of (95_test_vectors.md section 4). -/

namespace Sys2Proof.Machine

/-! ### What each command writes -/

theorem exec_e_next (rd ra rb : Reg) (s : State) :
    ∃ t, exec (.e rd ra rb) s = .next t ∧ t.reg rd = eTransform (s.reg ra) (s.reg rb) ∧
      CompletedFrame [rd] s.hstate s t :=
  binary_next eTransform rd ra rb s

theorem exec_g_next (rd ra rb : Reg) (s : State) :
    ∃ t, exec (.g rd ra rb) s = .next t ∧
      t.reg rd = compress (s.reg rd) (s.reg ra) (s.reg rb) ∧ CompletedFrame [rd] s.hstate s t :=
  binary_next (compress (s.reg rd)) rd ra rb s

theorem exec_lps_next (rd ra : Reg) (s : State) :
    ∃ t, exec (.lps rd ra) s = .next t ∧ t.reg rd = lps (s.reg ra) ∧
      CompletedFrame [rd] s.hstate s t :=
  unary_next lps rd ra s

theorem exec_add_next (rd ra rb : Reg) (s : State) :
    ∃ t, exec (.add rd ra rb) s = .next t ∧ t.reg rd = add512 (s.reg ra) (s.reg rb) ∧
      CompletedFrame [rd] s.hstate s t :=
  binary_next add512 rd ra rb s

theorem exec_addi_next (rd ra : Reg) (imm : BitVec 10) (s : State) :
    ∃ t, exec (.addi rd ra imm) s = .next t ∧
      t.reg rd = add512 (s.reg ra) (blk imm.toNat) ∧ CompletedFrame [rd] s.hstate s t :=
  unary_next (fun a => add512 a (immBlock imm)) rd ra s

/-- Every register after a command that wrote `v` to `rd`. -/
theorem CompletedFrame.reg_eq {rd : Reg} {v : Block} {x : HState} {s t : State}
    (h : CompletedFrame [rd] x s t) (hv : t.reg rd = v) (r : Reg) :
    t.reg r = if r = rd then v else s.reg r := by
  split
  · next hr => rw [hr, hv]
  · next hr => exact h.reg_of_ne hr

/-! ### E and its unrolled form (R160) -/

/-- The unrolled form of E after `r` rounds: each round adds its key, from round 0 on, and applies LPS,
starting from `m`. -/
def eUnrolled (k m : Block) : Nat → Block
  | 0 => m
  | r + 1 => lps (xorBlock (eRounds k m r).1 (eUnrolled k m r))

/-- The value of round `r` is the unrolled form with the key of that round added: a round of E adds its
key last, where the unrolled form adds it first. -/
theorem eRounds_snd_eq (k m : Block) (r : Nat) :
    (eRounds k m r).2 = xorBlock (eRounds k m r).1 (eUnrolled k m r) := by
  induction r with
  | zero => rfl
  | succ r ih =>
    calc (eRounds k m (r + 1)).2
        = xorBlock (lps (eRounds k m r).2) (eRounds k m (r + 1)).1 := rfl
      _ = xorBlock (eUnrolled k m (r + 1)) (eRounds k m (r + 1)).1 := by rw [ih, eUnrolled]
      _ = xorBlock (eRounds k m (r + 1)).1 (eUnrolled k m (r + 1)) := BitVec.xor_comm _ _

/-- Settles O19: the keys and values of the rounds are those of `eRounds`, and the unrolled form is
`eUnrolled`. -/
theorem eIsTwelveRounds : Obligations.EIsTwelveRounds := by
  intro s rd ra rb
  obtain ⟨t, ht, hval, hframe⟩ := exec_e_next rd ra rb s
  refine ⟨t, ht, ⟨fun r => (eRounds (s.reg ra) (s.reg rb) r).1,
    fun r => (eRounds (s.reg ra) (s.reg rb) r).2, rfl, rfl, fun _ _ => ⟨rfl, rfl⟩, hval,
    eUnrolled (s.reg ra) (s.reg rb), rfl, fun _ _ => rfl, ?_⟩, hframe⟩
  exact hval.trans (eRounds_snd_eq _ _ 12)

/-! ### G (R162) -/

/-- Settles O20: the command E, run on the key in T0 and on m in T1, computes the E inside G. -/
theorem gIsTheCompression : Obligations.GIsTheCompression := by
  intro s rd ra rb
  obtain ⟨t, ht, hval, hframe⟩ := exec_g_next rd ra rb s
  refine ⟨t, ht, hframe, fun u v hkey hm hv => ?_⟩
  obtain ⟨v', hv', he, -⟩ := exec_e_next .t1 .t0 .t1 u
  obtain rfl : v = v' := Host.Outcome.next.inj (hv.symm.trans hv')
  rw [hval, compress, he, hkey, hm]

/-! ### The frame of E and G (R165) -/

/-- No read of the window sees the scratch (R50). -/
theorem windowRead_withScratch (s : State) (c : Scratch) (off : Offset) :
    windowRead { s with scratch := c } off = windowRead s off := rfl

/-- Settles O21: each writes one register, and the window has no view of the scratch. -/
theorem eAndGChangeOnlyTheirDestination : Obligations.EAndGChangeOnlyTheirDestination := by
  intro s rd ra rb
  constructor
  · obtain ⟨t, ht, -, hframe⟩ := exec_e_next rd ra rb s
    exact ⟨t, ht, fun _ hr => hframe.reg_of_ne hr, windowRead_withScratch t⟩
  · obtain ⟨t, ht, -, hframe⟩ := exec_g_next rd ra rb s
    exact ⟨t, ht, fun _ hr => hframe.reg_of_ne hr, windowRead_withScratch t⟩

/-! ### HBLK by primitive commands (R162, R192) -/

theorem chain_finish_setChain (c : Chain) (s : State) : (finish (s.setChain c)).chain = c := by
  simp [State.chain]

/-- Settles O29: the first five commands put the key in T0, E of it in T1 and G in H (R162); ADDI and ADD
update N and SIGMA, which the first five leave as they were (R192). -/
theorem primitiveCommandsComposeToHblk : Obligations.PrimitiveCommandsComposeToHblk := by
  intro s hacc
  obtain ⟨a1, h1, v1, f1⟩ := exec_xor_next .t0 .h .n s
  obtain ⟨a2, h2, v2, f2⟩ := exec_lps_next .t0 .t0 a1
  obtain ⟨a3, h3, v3, f3⟩ := exec_e_next .t1 .t0 .m a2
  obtain ⟨a4, h4, v4, f4⟩ := exec_xor_next .t1 .t1 .h a3
  obtain ⟨a5, h5, v5, f5⟩ := exec_xor_next .h .t1 .m a4
  obtain ⟨a6, h6, v6, f6⟩ := exec_addi_next .n .n 512 a5
  obtain ⟨a7, h7, v7, f7⟩ := exec_add_next .sigma .sigma .m a6
  refine ⟨_, a1, a2, a3, a4, a5, a6, a7, execHblk_ok s hacc, h1, h2, h3, h4, h5, h6, h7, ?_⟩
  have r1 := f1.reg_eq v1
  have r2 := f2.reg_eq v2
  have r3 := f3.reg_eq v3
  have r4 := f4.reg_eq v4
  have r5 := f5.reg_eq v5
  have r6 := f6.reg_eq v6
  have r7 := f7.reg_eq v7
  have hkey : a2.reg .t0 = lps (xorBlock (s.reg .h) (s.reg .n)) := by rw [v2, v1]
  have he : a3.reg .t1 = eTransform (lps (xorBlock (s.reg .h) (s.reg .n))) (s.reg .m) := by
    simp [v3, hkey, r2, r1]
  have hh : a7.reg .h = compress (s.reg .h) (s.reg .m) (s.reg .n) := by
    simp [compress, r7, r6, v5, v4, he, r4, r3, r2, r1]
  have hn : a7.reg .n = add512 (s.reg .n) (blk 512) := by
    simp [r7, v6, r5, r4, r3, r2, r1]
  have hsigma : a7.reg .sigma = add512 (s.reg .sigma) (s.reg .m) := by
    simp [v7, r6, r5, r4, r3, r2, r1]
  rw [chain_finish_setChain, State.chain, hh, hn, hsigma]
  rfl

end Sys2Proof.Machine
end

section
/-! The proofs of the family 43_padding.md: the padding of one block (R180) by the command PAD (R181). -/

namespace Sys2Proof.Machine

/-! ### The bits of a padded block (R180) -/

theorem getLsbD_blk (x : Nat) {b : Nat} (hb : b < 512) : (blk x).getLsbD b = x.testBit b := by
  rw [blk, BitVec.getLsbD_ofNat, decide_eq_true hb, Bool.true_and]

theorem padBlock_full (m : Block) : padBlock m 512 = m := if_pos rfl

/-- The low `n` bits and the set bit above them do not overlap, so their sum carries nothing. -/
theorem getLsbD_padBlock (m : Block) {n b : Nat} (hn : n < 512) (hb : b < 512) :
    (padBlock m n).getLsbD b = if b < n then m.getLsbD b else decide (b = n) := by
  have hlow : m.toNat % 2 ^ n < 2 ^ n := Nat.mod_lt _ (Nat.two_pow_pos n)
  have hsum : m.toNat % 2 ^ n + 2 ^ n = 2 ^ n * 1 + m.toNat % 2 ^ n := by
    rw [Nat.mul_one, Nat.add_comm]
  rw [padBlock, if_neg hn.ne, getLsbD_blk _ hb, hsum, Nat.testBit_two_pow_mul_add 1 hlow]
  split
  · next hlt =>
    rw [Nat.testBit_mod_two_pow, decide_eq_true hlt, Bool.true_and, BitVec.testBit_toNat]
  · next hge =>
    rw [Bool.eq_iff_iff, Nat.testBit_one_eq_true_iff_self_eq_zero, decide_eq_true_iff]
    omega

/-! ### PAD (R181) -/

theorem exec_pad_next (rd ra : Reg) {imm : BitVec 10} (s : State) (h : imm.toNat ≤ 512) :
    ∃ t, exec (.pad rd ra imm) s = .next t ∧ t.reg rd = padBlock (s.reg ra) imm.toNat ∧
      CompletedFrame [rd] s.hstate s t := by
  rw [exec, execPad_ok rd ra imm s h]
  exact unary_next (fun a => padBlock a imm.toNat) rd ra s

/-- Settles O22: PAD writes the padded block, which at n = 512 is the block itself and below that is
read bit by bit. -/
theorem padKeepsTheLowBits : Obligations.PadKeepsTheLowBits := by
  intro s rd ra imm himm
  obtain ⟨t, ht, hval, hframe⟩ := exec_pad_next rd ra s himm
  refine ⟨t, ht, fun hfull => ?_, fun hlt b hb => ?_, hframe⟩
  · rw [hval, hfull, padBlock_full]
  · rw [hval, getLsbD_padBlock _ hlt hb]

end Sys2Proof.Machine
end

section
/-! The proofs of the family 44_hash_engine.md: the commands HINIT, HBLK, HFIN and HRESUME on the chain
state (R191 to R197), and the table of HSTATE (R190). -/

namespace Sys2Proof.Machine

/-! ### What each command leaves in the chain state -/

theorem chain_finish_setChain_setHState (c : Chain) (x : HState) (s : State) :
    (finish ((s.setChain c).setHState x)).chain = c := by
  simp [State.chain]

theorem exec_hinit_next (s : State) :
    ∃ t, exec .hinit s = .next t ∧ t.chain = chainInit (s.reg .iv) ∧
      CompletedFrame [.h, .n, .sigma] .accum s t :=
  ⟨_, rfl, chain_finish_setChain_setHState _ .accum s, chain_hstate_frame _ .accum s⟩

theorem exec_hblk_next {s : State} (h : s.hstate = .accum) :
    ∃ t, exec .hblk s = .next t ∧ t.chain = chainBlock s.chain (s.reg .m) ∧
      CompletedFrame [.h, .n, .sigma] .accum s t :=
  ⟨_, execHblk_ok s h, chain_finish_setChain _ s, h ▸ chain_frame _ s⟩

theorem exec_hfin_next {imm : BitVec 10} {s : State} (himm : imm.toNat ≤ 512)
    (h : s.hstate = .accum) :
    ∃ t, exec (.hfin imm) s = .next t ∧ t.chain = chainFinal s.chain (s.reg .m) imm.toNat ∧
      CompletedFrame [.h, .n, .sigma] .done s t :=
  ⟨_, execHfin_ok imm s himm h, chain_finish_setChain_setHState _ .done s,
    chain_hstate_frame _ .done s⟩

/-- The chain state is read in H, N and SIGMA (10_state.md R32). -/
theorem chain_eq_iff (t : State) (c : Chain) :
    t.chain = c ↔ t.reg .h = c.h ∧ t.reg .n = c.n ∧ t.reg .sigma = c.sigma := by
  cases c
  rw [State.chain, Chain.mk.injEq]

/-! ### HINIT and HRESUME (R194, R197) -/

/-- Settles O24: HINIT leaves Init(IV) in the chain state. -/
theorem hinitStartsFromIv : Obligations.HinitStartsFromIv := by
  intro s
  obtain ⟨t, ht, hchain, hframe⟩ := exec_hinit_next s
  obtain ⟨hh, hn, hsigma⟩ := (chain_eq_iff t _).mp hchain
  exact ⟨t, ht, hh, hn, hsigma, hframe⟩

/-- Settles O27: HRESUME has no range, no required HSTATE and no written register. -/
theorem hresumeReentersAccum : Obligations.HresumeReentersAccum :=
  fun _ => exec_completesWith (i := .hresume) rfl fun _ h => nomatch h

/-! ### HBLK (R192, R195) -/

/-- A bit count up to 512 is its own value as a block. -/
theorem blk_toNat_of_le_512 {n : Nat} (h : n ≤ 512) : (blk n).toNat = n :=
  blk_toNat_of_lt n <| h.trans_lt <|
    show 2 ^ 9 < 2 ^ 512 from pow_lt_pow_right₀ one_lt_two (by decide)

/-- Settles O25: HBLK leaves Block of the old chain state, whose sums are taken modulo 2^512. -/
theorem hblkAccumulatesTheBlock : Obligations.HblkAccumulatesTheBlock := by
  intro s hacc
  obtain ⟨t, ht, hchain, hframe⟩ := exec_hblk_next hacc
  obtain ⟨hh, hn, hsigma⟩ := (chain_eq_iff t _).mp hchain
  refine ⟨t, ht, hh, ?_, ?_, hframe⟩
  · rw [hn, chainBlock, add512_toNat, blk_toNat_of_le_512 le_rfl]
    rfl
  · rw [hsigma, chainBlock, add512_toNat]
    rfl

/-! ### HFIN (R193, R196) -/

/-- The low `n` bits and the set bit above them stay below 2^512, so padding loses nothing. -/
theorem padBlock_toNat (m : Block) {n : Nat} (hn : n < 512) :
    (padBlock m n).toNat = m.toNat % 2 ^ n + 2 ^ n := by
  have hlow : m.toNat % 2 ^ n < 2 ^ n := Nat.mod_lt _ (Nat.two_pow_pos n)
  have hfits : m.toNat % 2 ^ n + 2 ^ n < 2 ^ 512 :=
    calc m.toNat % 2 ^ n + 2 ^ n
        < 2 ^ n + 2 ^ n := Nat.add_lt_add_right hlow _
      _ = 2 ^ (n + 1) := (Nat.two_pow_succ n).symm
      _ ≤ 2 ^ 512 := pow_le_pow_right₀ one_le_two (Nat.succ_le_of_lt hn)
  rw [padBlock, if_neg hn.ne, blk_toNat_of_lt _ hfits]

/-- Settles O26: HFIN leaves Final of the old chain state; its padded block is `padBlock` and its first
two compressions are those of R193. -/
theorem hfinFinalises : Obligations.HfinFinalises := by
  intro s imm himm hacc
  obtain ⟨t, ht, hchain, hframe⟩ := exec_hfin_next himm hacc
  obtain ⟨hh, hn, hsigma⟩ := (chain_eq_iff t _).mp hchain
  refine ⟨t, padBlock (s.reg .m) imm.toNat, _, _, ht, fun hfull => ?_, padBlock_toNat _, rfl,
    ?_, ?_, rfl, ?_, hframe⟩
  · rw [hfull, padBlock_full]
  · rw [hn, chainFinal, add512_toNat, blk_toNat_of_le_512 himm]
    rfl
  · rw [hsigma, chainFinal, add512_toNat]
    rfl
  · rw [hh, hn, hsigma]
    rfl

/-! ### The table of HSTATE (R190) -/

theorem sequenceHolds_of_required_none {i : Instr} (x : HState) (h : requiredHState i = none) :
    sequenceHolds i x :=
  fun _ hy => nomatch h.symm.trans hy

theorem ne_of_not_sequenceHolds {i : Instr} {x y : HState} (h : ¬ sequenceHolds i x)
    (hreq : requiredHState i = some y) : x ≠ y :=
  fun hxy => h fun _ hz => hxy.trans (Option.some.inj (hreq.symm.trans hz))

/-- Outside its required HSTATE a command in range is rejected with SEQUENCE. -/
theorem exec_of_not_sequenceHolds {i : Instr} {s : State} (hwf : i.WellFormed)
    (h : ¬ sequenceHolds i s.hstate) : exec i s = raise .sequence i s := by
  cases i with
  | hblk => exact execHblk_not s (ne_of_not_sequenceHolds h rfl)
  | hfin imm =>
    exact execHfin_not imm s (of_decide_eq_true hwf) (ne_of_not_sequenceHolds h rfl)
  | khash => exact execKhash_not s (ne_of_not_sequenceHolds h rfl)
  | houter => exact execHouter_not s (ne_of_not_sequenceHolds h rfl)
  | _ => exact absurd (sequenceHolds_of_required_none s.hstate rfl) h

theorem hostRead_hstate (off : Offset) (s : State) : (hostRead off s).hstate = s.hstate := by
  rcases hostRead_cases off s with ⟨_, -, h⟩ | ⟨-, h⟩ <;> rw [h]

theorem present_hstate (v : Word) (s : State) : (present v s).hstate = s.hstate := by
  rcases present_cases v s with ⟨-, h⟩ | ⟨-, -, h⟩ | ⟨-, -, h⟩ <;> simp [h]

theorem hostWrite_hstate (off : Offset) (v : Word) (s : State) :
    (hostWrite off v s).hstate = s.hstate := by
  rcases hostWrite_cases off v s with ⟨-, h⟩ | ⟨-, h⟩ | ⟨-, -, h⟩ | ⟨-, -, h⟩ | ⟨-, -, h⟩ |
    ⟨-, -, -, -, h⟩ <;> simp [h, present_hstate, writeStatus_eq]

/-- Every host write leaves HSTATE (R190), and so does every read. -/
theorem hostAccess_keeps_hstate {a : Access} {s t : State} (h : hostAccess a s = .next t) :
    t.hstate = s.hstate := by
  rcases hostAccess_cases a s with ⟨-, hbad⟩ | ⟨-, -, hread⟩ | ⟨v, -, -, hwrite⟩
  · exact nomatch hbad.symm.trans h
  · obtain rfl := Host.Outcome.next.inj (hread.symm.trans h)
    exact hostRead_hstate a.off s
  · obtain rfl := Host.Outcome.next.inj (hwrite.symm.trans h)
    exact hostWrite_hstate a.off v s

/-- Settles O35: an accepted command leaves its row's HSTATE, a rejection (SEQUENCE or a range error)
leaves the old one, and no host access writes it. -/
theorem hstateFollowsTheTable : Obligations.HstateFollowsTheTable := by
  refine ⟨fun i s hwf => ⟨fun hseq => ?_, fun hseq => ?_⟩, fun i s t hwf ht => ?_,
    fun _ _ _ => hostAccess_keeps_hstate⟩
  · obtain ⟨t, ht, hframe⟩ := exec_completesWith hwf hseq
    exact ⟨t, ht, hframe.hstate⟩
  · rw [exec_of_not_sequenceHolds hwf hseq]
    exact raise_next .sequence i s
  · obtain ⟨t', ht', hrejected⟩ := outOfRangeImmediatesAreRejected i s hwf
    obtain rfl : t = t' := Host.Outcome.next.inj (ht.symm.trans ht')
    exact hrejected.hstate

end Sys2Proof.Machine
end

section
/-! The proofs of the family 45_hmac.md: the key commands KPAD and KHASH (R211, R212), the inner pad of
HIPAD (R213) and the outer hash of HOUTER (R214, R216, R217). -/

namespace Sys2Proof.Machine

/-! ### What each command writes -/

theorem exec_kpad_next (align : Bool) {klen : BitVec 7} (s : State) (hlo : 1 ≤ klen.toNat)
    (hhi : klen.toNat ≤ 64) :
    ∃ t, exec (.kpad align klen) s = .next t ∧
      t.reg .key = keyPad align klen.toNat (s.reg .key) ∧ CompletedFrame [.key] s.hstate s t := by
  rw [exec, execKpad_ok align klen s ⟨hlo, hhi⟩]
  exact unary_next (keyPad align klen.toNat) .key .key s

theorem exec_khash_next {s : State} (h : s.hstate = .done) :
    ∃ t, exec .khash s = .next t ∧ t.reg .key = s.reg .h ∧ CompletedFrame [.key] .done s t := by
  rw [exec, execKhash_ok s h, ← h]
  exact writeResult_next .key (s.reg .h) s

theorem exec_hipad_next (s : State) :
    ∃ t, exec .hipad s = .next t ∧
      t.reg .m = xorBlock (s.reg .key) (fill (innerPadByte s)) ∧ t.chain = chainInit 0 ∧
      CompletedFrame [.m, .h, .n, .sigma] .accum s t :=
  ⟨_, rfl, by simp, chain_finish_setChain_setHState _ .accum _,
    setReg_setChain_setHState_frame _ (chainInit 0) .accum s⟩

theorem exec_houter_next {s : State} (h : s.hstate = .done) :
    ∃ t, exec .houter s = .next t ∧
      t.chain = outerHash s.bndpad (s.reg .key) (s.reg .h) ∧ t.reg .key = 0 ∧ t.reg .m = 0 ∧
      CompletedFrame [.h, .n, .sigma, .key, .m] .done s t :=
  ⟨_, execHouter_ok s h, by simp [State.chain], by simp, by simp,
    setChain_zeroKey_frame _ .done s⟩

/-! ### KPAD and KHASH (R211, R212) -/

/-- The kept bytes of a normalised key: the last `klen` of them when ALIGN = 1, else the first. -/
theorem byte_keyPad_kept (align : Bool) (klen : Nat) (key : Block) {k : Nat} (hk : k < 64) :
    byte (keyPad align klen key) k =
      if (if align then 64 - klen ≤ k else k < klen) then byte key k else 0 := by
  rw [byte_keyPad align klen key k hk, ← ite_not]
  refine if_congr ?_ rfl rfl
  cases align <;> simp

/-- Settles O30: KPAD writes the normalised key, which is read byte by byte. -/
theorem kpadKeepsKlenBytes : Obligations.KpadKeepsKlenBytes := by
  intro s align klen hlo hhi
  obtain ⟨t, ht, hkey, hframe⟩ := exec_kpad_next align s hlo hhi
  exact ⟨t, ht, fun k hk => hkey ▸ byte_keyPad_kept align klen.toNat _ hk, hframe⟩

/-- Settles O31: KHASH writes H to KEY and reads nothing else. -/
theorem khashCopiesTheDigest : Obligations.KhashCopiesTheDigest :=
  fun _ => exec_khash_next

/-! ### HIPAD (R213, R217) -/

theorem byte_xorBlock_fill (a : Block) (c : Byte) {k : Nat} (hk : k < 64) :
    byte (xorBlock a (fill c)) k = byte a k ^^^ c := by
  rw [byte_xorBlock, byte_fill c k hk]

/-- Settles O32: HIPAD leaves the inner pad in M and Init(0) in the chain state. -/
theorem hipadFormsTheInnerPad : Obligations.HipadFormsTheInnerPad := by
  intro s
  obtain ⟨t, ht, hm, hchain, hframe⟩ := exec_hipad_next s
  obtain ⟨hh, hn, hsigma⟩ := (chain_eq_iff t _).mp hchain
  exact ⟨t, ht, fun k hk => hm ▸ byte_xorBlock_fill _ (innerPadByte s) hk, hh, hn, hsigma, hframe⟩

/-! ### The outer hash (R214) -/

/-- The end of Final: the compressions of N and of Σ under a zero counter (R193). -/
def chainSeal (c : Chain) : Chain := ⟨compress (compress c.h c.n 0) c.sigma 0, c.n, c.sigma⟩

theorem chainFinal_full (c : Chain) (m : Block) :
    chainFinal c m 512 = chainSeal (chainBlock c m) := by
  rw [chainFinal, padBlock_full]
  rfl

theorem zero_add512 (a : Block) : add512 0 a = a :=
  BitVec.eq_of_toNat_eq <| by
    rw [add512_toNat, BitVec.ofNat_eq_ofNat, BitVec.toNat_zero, Nat.zero_add,
      Nat.mod_eq_of_lt a.isLt]

theorem add512_blk (x y : Nat) : add512 (blk x) (blk y) = blk (x + y) :=
  BitVec.eq_of_toNat_eq <| by simp only [add512_toNat, blk_toNat, Nat.add_mod_mod, Nat.mod_add_mod]

/-- The padding block of a message that ended on a block boundary. -/
theorem padBlock_zero (m : Block) : padBlock m 0 = blk 1 := by
  rw [padBlock, if_neg (by decide), Nat.pow_zero, Nat.mod_one]

/-- Final with no bits left: the padding block blk(1) is compressed and N stays. -/
theorem chainFinal_empty (h sigma m : Block) (x : Nat) :
    chainFinal ⟨h, blk x, sigma⟩ m 0 =
      chainSeal ⟨compress h (blk 1) (blk x), blk x, add512 sigma (blk 1)⟩ := by
  rw [chainFinal, padBlock_zero, add512_blk]
  rfl

/-- The opad block of a key (R214, R217). -/
def outerPad (key : Block) : Block := xorBlock key (fill outerPadByte)

/-- The hash value once the opad block and the inner digest are compressed (R214). -/
def outerDigestHash (key inner : Block) : Block :=
  compress (compress 0 (outerPad key) 0) inner (blk 512)

/-- The chain state once the opad block and the inner digest are compressed. -/
theorem chainBlock_opad_inner (key inner : Block) :
    chainBlock (chainBlock (chainInit 0) (outerPad key)) inner =
      ⟨outerDigestHash key inner, blk 1024, add512 (outerPad key) inner⟩ := by
  simp only [chainBlock, chainInit, zero_add512, add512_blk]
  rfl

theorem outerHash_false (key inner : Block) :
    outerHash false key inner =
      chainSeal ⟨outerDigestHash key inner, blk 1024, add512 (outerPad key) inner⟩ :=
  (chainFinal_full _ inner).trans (congrArg chainSeal (chainBlock_opad_inner key inner))

theorem outerHash_true (key inner : Block) :
    outerHash true key inner =
      chainSeal ⟨compress (outerDigestHash key inner) (blk 1) (blk 1024), blk 1024,
        add512 (add512 (outerPad key) inner) (blk 1)⟩ :=
  (congrArg (chainFinal · 0 0) (chainBlock_opad_inner key inner)).trans
    (chainFinal_empty _ _ 0 1024)

/-- The outer hash under either boundary rule: what is sealed, and its Σ as an integer. -/
theorem outerHash_eq (bndpad : Bool) (key inner : Block) :
    ∃ sigma, outerHash bndpad key inner =
        chainSeal ⟨if bndpad then compress (outerDigestHash key inner) (blk 1) (blk 1024)
          else outerDigestHash key inner, blk 1024, sigma⟩ ∧
      sigma.toNat = ((outerPad key).toNat + inner.toNat + if bndpad then 1 else 0) % 2 ^ 512 := by
  cases bndpad with
  | false => exact ⟨_, outerHash_false key inner, add512_toNat _ inner⟩
  | true =>
    refine ⟨_, outerHash_true key inner, ?_⟩
    rw [add512_toNat, add512_toNat, Nat.mod_add_mod, blk_toNat_of_le_512 (by decide)]
    rfl

/-! ### HOUTER (R214, R216) -/

/-- Settles O33: HOUTER leaves the outer hash in the chain state, and its last two compressions, of N and
of Σ, are those of the seal. -/
theorem houterRunsTheOuterHash : Obligations.HouterRunsTheOuterHash := by
  intro s hdone
  obtain ⟨t, ht, hchain, hkey, hm, hframe⟩ := exec_houter_next hdone
  obtain ⟨sigma, houter, hsum⟩ := outerHash_eq s.bndpad (s.reg .key) (s.reg .h)
  obtain ⟨hh, hn, hsigma⟩ := (chain_eq_iff t _).mp (hchain.trans houter)
  refine ⟨t, outerPad (s.reg .key), _, _, _, ht, fun k hk => byte_xorBlock_fill _ outerPadByte hk,
    rfl, rfl, rfl, ?_, hn, ?_, hkey, hm, hframe⟩
  · rw [hh, hsigma]
    rfl
  · rw [hsigma]
    exact hsum

end Sys2Proof.Machine
end

section
/-! The proofs of the family 46_system.md: NOP (R230) with MOV and CLR (R137, R138), WIPE (R231), and what
every command keeps however it ends (R232, R240, R249). -/

namespace Sys2Proof.Machine

/-! ### How a command ends (R240, R249) -/

/-- A command completes, or it is rejected by its range test or its HSTATE test; there is no third end. -/
theorem exec_completed_or_rejected (i : Instr) (s : State) :
    ∃ t, exec i s = .next t ∧ (CompletedFrame (writtenRegs i) (hstateAfter i s.hstate) s t ∨
      ∃ code, RejectedWith code (encode i) s t) := by
  by_cases hwf : i.WellFormed
  · by_cases hseq : sequenceHolds i s.hstate
    · obtain ⟨t, ht, hframe⟩ := exec_completesWith hwf hseq
      exact ⟨t, ht, .inl hframe⟩
    · rw [exec_of_not_sequenceHolds hwf hseq]
      obtain ⟨t, ht, hrejected⟩ := raise_next .sequence i s
      exact ⟨t, ht, .inr ⟨_, hrejected⟩⟩
  · obtain ⟨t, ht, hrejected⟩ := outOfRangeImmediatesAreRejected i s hwf
    exact ⟨t, ht, .inr ⟨_, hrejected⟩⟩

/-- BUSY is 0 without a pending command (R46). -/
theorem busy_of_pending_none {s : State} (h : s.pending = none) : s.busy = false := by
  rw [State.busy, h, Option.isSome_none]

/-- Settles O38: the frame of a completion and that of a rejection both keep CTRL and everything outside the
engine, and both leave BUSY 0 and DONE 1. -/
theorem noCommandStopsOrChangesCtrl : Obligations.NoCommandStopsOrChangesCtrl := by
  intro i s
  obtain ⟨t, ht, hframe | ⟨_, hrejected⟩⟩ := exec_completed_or_rejected i s
  · exact ⟨t, ht, hframe.ctrl, busy_of_pending_none hframe.pending, hframe.done,
      hframe.resetAsserted, hframe.schedule, hframe.readData, hframe.engineId⟩
  · exact ⟨t, ht, hrejected.ctrl, busy_of_pending_none hrejected.pending, hrejected.done,
      hrejected.resetAsserted, hrejected.schedule, hrejected.readData, hrejected.engineId⟩

/-! ### NOP, MOV and CLR (R230, R137, R138) -/

theorem exec_mov_next (rd ra : Reg) (s : State) :
    ∃ t, exec (.mov rd ra) s = .next t ∧ t.reg rd = s.reg ra ∧ CompletedFrame [rd] s.hstate s t :=
  writeResult_next rd (s.reg ra) s

theorem exec_clr_next (rd : Reg) (s : State) :
    ∃ t, exec (.clr rd) s = .next t ∧ t.reg rd = 0 ∧ CompletedFrame [rd] s.hstate s t :=
  writeResult_next rd 0 s

/-- Settles O8: the three commands have no range and no required HSTATE, and MOV and CLR write one
register. -/
theorem nopMovClrComplete : Obligations.NopMovClrComplete := fun s rd ra =>
  ⟨exec_completesWith (i := .nop) rfl (sequenceHolds_of_required_none s.hstate rfl),
    exec_mov_next rd ra s, exec_clr_next rd s⟩

/-! ### WIPE (R231) -/

/-- Settles O34: WIPE ends in the state whose registers are `zeroRegs` and whose scratch is zero. -/
theorem wipeClearsTheData : Obligations.WipeClearsTheData := by
  intro s
  obtain ⟨t, ht, hframe⟩ := execWipe_completesWith s
  obtain rfl := Host.Outcome.next.inj ht
  exact ⟨_, rfl, reg_zeroRegs s, rfl, hframe⟩

end Sys2Proof.Machine
end

section
/-! The proofs of the family 60_exceptions.md: the order of Check (R248), Present (R240), the error
record (R242, R250), the accesses while BUSY = 1 (R243), IRQ (R246, R247), a saved hash (R256), and
the invariant of the engine. -/

namespace Sys2Proof.Machine

/-! ### Check is the printed order of tests (R248) -/

/-- The bits of a word R248 compares with the opcode alone: OP, RES, the fields the form marks 0
(R92) and KPAD's imm[9:8]. -/
def maskFields (op : BitVec 8) (form : Form) : Fields :=
  let all : Fields := ⟨.allOnes 8, .allOnes 3, .allOnes 3, .allOnes 3, .allOnes 10, .allOnes 5⟩
  match form with
  | .none => all
  | .d => { all with rd := 0 }
  | .da => { all with rd := 0, ra := 0 }
  | .dab => { all with rd := 0, ra := 0, rb := 0 }
  | .dai => { all with rd := 0, ra := 0, imm := 0 }
  | .di => { all with rd := 0, imm := 0 }
  | .i => { all with imm := if op = 0x30 then 0x300 else 0 }

/-- The masks of spec/opcode_table.json are those of the forms. -/
theorem opcodeMasks_lookup (op : BitVec 8) :
    opcodeMasks.lookup op.toNat = (formOf op).map fun form => (maskFields op form).toWord := by
  revert op
  decide

theorem ofWord_opcode (op : BitVec 8) :
    Fields.ofWord (BitVec.ofNat 32 op.toNat) = ⟨op, 0, 0, 0, 0, 0⟩ := by
  have hword : BitVec.ofNat 32 op.toNat = (⟨op, 0, 0, 0, 0, 0⟩ : Fields).toWord := by
    apply BitVec.eq_of_toNat_eq
    have := op.isLt
    simp only [Fields.toWord, append_toNat, BitVec.ofNat_eq_ofNat, BitVec.toNat_ofNat]
    omega
  rw [hword, Fields.ofWord_toWord]

/-- KPAD's mask keeps imm[9:8] (R211). -/
theorem and_kpadMask_eq_zero_iff (imm : BitVec 10) :
    imm &&& 0x300#10 = 0#10 ↔ imm.extractLsb' 8 2 = 0#2 := by
  revert imm
  decide

/-- A word under its opcode's mask is the opcode alone exactly when its reserved bits are clear. -/
theorem masked_eq_opcode_iff (v : Word) {form : Form}
    (hform : formOf (Fields.ofWord v).op = some form) :
    v &&& (maskFields (Fields.ofWord v).op form).toWord
        = BitVec.ofNat 32 (Fields.ofWord v).op.toNat ↔
      reservedClear form (Fields.ofWord v) = true := by
  rw [Fields.word_eq_iff, Fields.ofWord_and, Fields.ofWord_toWord, ofWord_opcode, reservedClear_iff]
  generalize Fields.ofWord v = f at hform ⊢
  obtain ⟨op, rd, ra, rb, imm, res⟩ := f
  have hkpad : op = 0x30#8 → some Form.i = some form := by
    rintro rfl
    exact hform
  cases form with
  | i =>
    by_cases hk : op = 0x30#8 <;>
      simp [maskFields, unusedClear, hk, and_kpadMask_eq_zero_iff, and_comm, and_left_comm,
        and_assoc, -BitVec.reduceAllOnes]
  | _ =>
    have hk : op ≠ 0x30#8 := fun h => nomatch hkpad h
    simp [maskFields, unusedClear, hk, and_comm, and_left_comm, and_assoc, -BitVec.reduceAllOnes]

/-- The tests of R248 after the masks, on the opcode, the immediate and HSTATE. -/
def rangeAndSequence (op imm : Nat) (x : HState) : ErrCode :=
  if op = 0x0A ∧ ¬(1 ≤ imm ∧ imm ≤ 12) then .immRange
  else if (op = 0x18 ∨ op = 0x22) ∧ 512 < imm then .immRange
  else if op = 0x30 ∧ ¬(1 ≤ imm % 128 ∧ imm % 128 ≤ 64) then .keyLen
  else if (op = 0x21 ∨ op = 0x22) ∧ x ≠ .accum then .sequence
  else if (op = 0x31 ∨ op = 0x33) ∧ x ≠ .done then .sequence
  else .none

theorem checkOrder_of_lookup_none {v : Word} (x : HState)
    (h : opcodeMasks.lookup (v.toNat % 256) = none) : checkOrder v x = .illegalOp := by
  simp only [checkOrder, h]

theorem checkOrder_of_lookup_some {v mask : Word} (x : HState)
    (h : opcodeMasks.lookup (v.toNat % 256) = some mask) :
    checkOrder v x =
      if v &&& mask ≠ BitVec.ofNat 32 (v.toNat % 256) then .reservedField
      else rangeAndSequence (v.toNat % 256) (v.toNat / 2 ^ 17 % 1024) x := by
  simp only [checkOrder, h, rangeAndSequence]

/-- A command's range and sequence tests are those its word's fields select. -/
theorem rangeAndSequence_fieldsOf (i : Instr) (x : HState) :
    rangeAndSequence (fieldsOf i).op.toNat (fieldsOf i).imm.toNat x =
      if rangeFault i = .none then sequenceFault i x else rangeFault i := by
  cases i with
  | ldc rd imm =>
    by_cases h : 1 ≤ imm.toNat ∧ imm.toNat ≤ 12 <;>
      simp [rangeAndSequence, fieldsOf, rangeFault, sequenceFault, h]
  | pad rd ra imm =>
    by_cases h : imm.toNat ≤ 512 <;>
      simp [rangeAndSequence, fieldsOf, rangeFault, sequenceFault, h]
  | hfin imm =>
    by_cases h : imm.toNat ≤ 512 <;> cases x <;>
      simp [rangeAndSequence, fieldsOf, rangeFault, sequenceFault, h]
  | kpad align klen =>
    have hklen : (0#2 ++ BitVec.ofBool align ++ klen).toNat % 128 = klen.toNat := by
      have := klen.isLt
      rw [append_toNat]
      omega
    by_cases h : 1 ≤ klen.toNat ∧ klen.toNat ≤ 64 <;>
      simp [rangeAndSequence, fieldsOf, rangeFault, sequenceFault, h, hklen]
  | _ => cases x <;> rfl

/-! ### What Check answers (R248) -/

theorem sequenceFault_eq (i : Instr) (x : HState) :
    sequenceFault i x =
      match requiredHState i with
      | none => .none
      | some y => if x = y then .none else .sequence := by
  cases i <;> rfl

/-- The sequence test passes exactly in the required HSTATE, and only a command with one can fail
it. -/
theorem sequenceFault_cases (i : Instr) (x : HState) :
    (sequenceHolds i x ∧ sequenceFault i x = .none) ∨
    (¬ sequenceHolds i x ∧ requiredHState i ≠ none ∧ sequenceFault i x = .sequence) := by
  rw [sequenceFault_eq, sequenceHolds]
  cases requiredHState i with
  | none => simp
  | some y => by_cases hx : x = y <;> simp [hx]

/-- Check answers a decode error, a range error, SEQUENCE, or 0 for a command in range and in its
required HSTATE. -/
theorem check_cases (v : Word) (x : HState) :
    (∃ c, decode v = .error c ∧ check v x = c) ∨
    (∃ i, decode v = .ok i ∧ ¬ i.WellFormed ∧ check v x = rangeFault i) ∨
    (∃ i, decode v = .ok i ∧ i.WellFormed ∧ requiredHState i ≠ none ∧ check v x = .sequence) ∨
    (∃ i, decode v = .ok i ∧ i.WellFormed ∧ sequenceHolds i x ∧ check v x = .none) := by
  cases hv : decode v with
  | error c => exact .inl ⟨c, rfl, by simp only [check, hv]⟩
  | ok i =>
    refine .inr ?_
    by_cases hwf : i.WellFormed
    · have hcheck : check v x = sequenceFault i x := by
        simp only [check, hv, (rangeFault_none_iff i).mpr hwf, if_true]
      rw [hcheck]
      refine .inr ?_
      rcases sequenceFault_cases i x with ⟨hseq, hfault⟩ | ⟨-, hreq, hfault⟩
      · exact .inr ⟨i, rfl, hwf, hseq, hfault⟩
      · exact .inl ⟨i, rfl, hwf, hreq, hfault⟩
    · refine .inl ⟨i, rfl, hwf, ?_⟩
      simp only [check, hv, mt (rangeFault_none_iff i).mp hwf, if_false]

/-- Check is `checkOrder`: a word refused by the decoder is refused by its mask, and the fields of a
word that decodes are those of its command. -/
theorem check_eq_checkOrder (v : Word) (x : HState) : check v x = checkOrder v x := by
  have hop := Fields.op_toNat v
  have hlookup := opcodeMasks_lookup (Fields.ofWord v).op
  cases hform : formOf (Fields.ofWord v).op with
  | none =>
    rw [hform, hop] at hlookup
    rw [checkOrder_of_lookup_none x hlookup]
    simp only [check, (decode_illegalOp_iff v).mpr hform]
  | some form =>
    have hmask := masked_eq_opcode_iff v hform
    rw [hform, hop, Option.map_some] at hlookup
    rw [checkOrder_of_lookup_some x hlookup, ← hop, ← Fields.imm_toNat]
    by_cases hclear : reservedClear form (Fields.ofWord v) = true
    · have hdecode : decode v = .ok (assemble (Fields.ofWord v)) := by
        simp only [decode, hform, hclear, if_true]
      rw [if_neg (not_not_intro (hmask.mpr hclear)), ← fieldsOf_assemble hform hclear,
        rangeAndSequence_fieldsOf]
      simp only [check, hdecode]
    · have hdecode : decode v = .error .reservedField := by
        simp only [decode, hform, hclear, if_false, Bool.false_eq_true]
      rw [if_pos (mt hmask.mp hclear)]
      simp only [check, hdecode]

/-! ### Present (R240) -/

theorem present_of_busy {s : State} (v : Word) (hb : s.busy = true) :
    present v s = recordError .cmdBusy v s :=
  if_pos hb

theorem present_of_check_none {v : Word} {s : State} (hb : s.busy = false)
    (hc : check v s.hstate = .none) : present v s = accept v s := by
  rw [present, hb, if_neg Bool.false_ne_true, if_pos hc]

theorem present_of_check_ne {v : Word} {s : State} (hb : s.busy = false)
    (hc : check v s.hstate ≠ .none) : present v s = reject (check v s.hstate) v s := by
  rw [present, hb, if_neg Bool.false_ne_true, if_neg hc]

theorem hostAccess_cmd (v : Word) (s : State) :
    hostAccess ⟨.write v, 0x008, 32⟩ s = .next (present v s) :=
  hostAccess_write v s rfl

/-- Settles O5: Check is the order of tests over the table's masks, and Present does not check a
word while BUSY = 1. -/
theorem checkFollowsThePriorityOrder : Obligations.CheckFollowsThePriorityOrder := by
  refine ⟨check_eq_checkOrder, rfl, fun x => rfl, fun v x hop => ?_, fun v s hb => ?_⟩
  · have hlookup : opcodeMasks.lookup (v.toNat % 256) = none := by
      rw [hop]
      rfl
    rw [check_eq_checkOrder, checkOrder_of_lookup_none x hlookup]
  · rw [present_of_busy v hb]
    refine ⟨recordError_pending .cmdBusy v s, recordError_done .cmdBusy v s, fun herr => ?_⟩
    rw [recordError_first _ v s herr]
    exact ⟨rfl, rfl⟩

/-- Settles O6: the write is Present, whose three ends are the three clauses. -/
theorem cmdWritePresentsTheCommand : Obligations.CmdWritePresentsTheCommand := by
  intro v s
  rw [← check_eq_checkOrder]
  refine ⟨present v s, hostAccess_cmd v s, present_of_busy v, present_of_check_none,
    fun hb hc => ?_⟩
  rw [present_of_check_ne hb hc]
  exact reject_rejectedWith _ v s

/-! ### What one move does (R15, R84, R270) -/

/-- Every read leaves all but what the host holds and the draw counter (R75). -/
theorem hostRead_frame (off : Offset) (s : State) :
    ∃ w n, hostRead off s = { s with readData := w, draws := n } := by
  rcases hostRead_cases off s with ⟨w, -, h⟩ | ⟨-, h⟩
  · exact ⟨w, s.draws, h⟩
  · exact ⟨_, _, h⟩

/-- The effect of one move that has a next state: a change of the reset input, the run of the
pending command, an aligned access, or none (the sequencer with nothing pending, and a release of a
reset that is not asserted). -/
inductive MoveEffect (s : State) : Move → State → Prop where
  | assertsReset : MoveEffect s (.reset true) (assertReset s)
  | releasesReset (h : s.resetAsserted = true) : MoveEffect s (.reset false) (releaseReset s)
  | runs (v : Word) (t : State) (hpending : s.pending = some v) (hrun : runWord v s = .next t) :
    MoveEffect s .sequencer t
  | reads (off : Offset) : MoveEffect s (.host ⟨.read, off, 32⟩) (hostRead off s)
  | writes (off : Offset) (v : Word) (halign : off.toNat % 4 = 0)
    (hreset : s.resetAsserted = false) :
    MoveEffect s (.host ⟨.write v, off, 32⟩) (hostWrite off v s)
  | stays (mv : Move) : MoveEffect s mv s

theorem hostAccess_effect {a : Access} {s t : State} (hreset : s.resetAsserted = false)
    (h : hostAccess a s = .next t) : MoveEffect s (.host a) t := by
  obtain ⟨kind, off, width⟩ := a
  rcases hostAccess_cases ⟨kind, off, width⟩ s with ⟨-, hbad⟩ | ⟨ha, hkind, hread⟩ |
    ⟨v, ha, hkind, hwrite⟩
  · exact nomatch hbad.symm.trans h
  · obtain ⟨rfl, -⟩ := (aligned_iff _).mp ha
    obtain rfl : kind = .read := hkind
    obtain rfl := Host.Outcome.next.inj (hread.symm.trans h)
    exact .reads off
  · obtain ⟨rfl, halign⟩ := (aligned_iff _).mp ha
    obtain rfl : kind = .write v := hkind
    obtain rfl := Host.Outcome.next.inj (hwrite.symm.trans h)
    exact .writes off v halign hreset

theorem complete_effect {s t : State} (h : complete s = .next t) : MoveEffect s .sequencer t := by
  cases hp : s.pending with
  | none =>
    obtain rfl := Host.Outcome.next.inj ((complete_of_pending_none hp).symm.trans h)
    exact .stays .sequencer
  | some v =>
    rw [complete, hp] at h
    exact .runs v t hp h

theorem setResetInput_effect (asserted : Bool) (s : State) :
    MoveEffect s (.reset asserted) (setResetInput asserted s) := by
  cases asserted with
  | true => exact .assertsReset
  | false =>
    cases hreset : s.resetAsserted with
    | true =>
      rw [setResetInput, hreset]
      exact .releasesReset hreset
    | false =>
      rw [setResetInput, hreset]
      exact .stays (.reset false)

/-- A move other than reset's has a next state only while reset is not asserted (R270). -/
theorem makeMove_effect {mv : Move} {s t : State} (h : makeMove mv s = .next t) :
    MoveEffect s mv t := by
  cases mv with
  | reset asserted =>
    obtain rfl := Host.Outcome.next.inj h
    exact setResetInput_effect asserted s
  | host a =>
    cases hreset : s.resetAsserted with
    | false => exact hostAccess_effect hreset ((makeMove_host a hreset).symm.trans h)
    | true =>
      rw [makeMove, hreset] at h
      exact nomatch h
  | sequencer =>
    cases hreset : s.resetAsserted with
    | false => exact complete_effect ((makeMove_sequencer hreset).symm.trans h)
    | true =>
      rw [makeMove, hreset] at h
      exact nomatch h

theorem runWord_of_decode {v : Word} {i : Instr} (s : State) (hv : decode v = .ok i) :
    runWord v s = exec i s := by
  simp only [runWord, hv]

/-- A pending word that runs to its end completes as its command's row says, or is rejected. -/
theorem runWord_cases {v : Word} {s t : State} (h : runWord v s = .next t) :
    (∃ i, decode v = .ok i ∧
      CompletedFrame (writtenRegs i) (hstateAfter i s.hstate) s t) ∨
    ∃ code w, RejectedWith code w s t := by
  cases hv : decode v with
  | error c =>
    simp only [runWord, hv] at h
    obtain rfl := Host.Outcome.next.inj h
    exact .inr ⟨c, v, reject_rejectedWith c v s⟩
  | ok i =>
    obtain ⟨u, hu, hend⟩ := exec_completed_or_rejected i s
    rw [runWord_of_decode s hv, hu] at h
    obtain rfl := Host.Outcome.next.inj h
    exact hend.imp (fun hframe => ⟨i, rfl, hframe⟩) fun ⟨code, hrej⟩ => ⟨code, _, hrej⟩

/-! ### The invariant of the engine (R240, R242, R249, R270, R273) -/

/-- The part of the invariant that is about the error record (R40, R242). -/
def RecordHolds (s : State) : Prop :=
  (s.errcode = .none ↔ s.err = false) ∧ recordSound s.errcode s.errcmd

theorem EngineInv.recordHolds {s : State} (hs : EngineInv s) : RecordHolds s :=
  ⟨hs.recordEmpty, hs.record⟩

/-- With no pending command the invariant is that of the record. -/
theorem RecordHolds.engineInv {s : State} (h : RecordHolds s) (hp : s.pending = none) :
    EngineInv s where
  recordEmpty := h.1
  record := h.2
  doneNotBusy := fun _ => busy_of_pending_none hp
  pendingChecked := fun _ hv => nomatch hp.symm.trans hv
  resetIdle := fun _ => hp

theorem recordHolds_congr {s t : State} (hs : RecordHolds s) (herr : t.err = s.err)
    (hcode : t.errcode = s.errcode) (hcmd : t.errcmd = s.errcmd) : RecordHolds t := by
  rw [RecordHolds, herr, hcode, hcmd]
  exact hs

/-- A recorded error is sound, and so is the first one kept (R242). -/
theorem recordError_recordHolds {code : ErrCode} {val : Word} {s : State} (hs : RecordHolds s)
    (hcode : code ≠ .none) (hval : recordSound code val) :
    RecordHolds (recordError code val s) := by
  cases herr : s.err with
  | true => rwa [recordError_kept code val s herr]
  | false =>
    rw [recordError_first code val s herr]
    exact ⟨⟨fun h => absurd h hcode, fun h => nomatch h⟩, hval⟩

/-- A change of other fields keeps the invariant; DONE may be cleared. -/
theorem EngineInv.congr {s t : State} (hs : EngineInv s) (hrecord : RecordHolds t)
    (hp : t.pending = s.pending) (hx : t.hstate = s.hstate)
    (hreset : t.resetAsserted = s.resetAsserted) (hd : t.done = true → s.done = true) :
    EngineInv t where
  recordEmpty := hrecord.1
  record := hrecord.2
  doneNotBusy := fun h => by
    rw [State.busy, hp]
    exact hs.doneNotBusy (hd h)
  pendingChecked := by
    rw [hp, hx]
    exact hs.pendingChecked
  resetIdle := by
    rw [hp, hreset]
    exact hs.resetIdle

theorem EngineInv.recordError {code : ErrCode} {val : Word} {s : State} (hs : EngineInv s)
    (hcode : code ≠ .none) (hval : recordSound code val) :
    EngineInv (Machine.recordError code val s) :=
  hs.congr (recordError_recordHolds hs.recordHolds hcode hval) (recordError_pending code val s)
    (recordError_hstate code val s) (recordError_resetAsserted code val s)
    (fun h => (recordError_done code val s).symm.trans h)

/-- What Check answers for a word is what the record may hold for it (R241). -/
theorem recordSound_check {v : Word} {x : HState} (h : check v x ≠ .none) :
    recordSound (check v x) v := by
  rcases check_cases v x with ⟨c, hv, hc⟩ | ⟨i, hv, hwf, hc⟩ | ⟨i, hv, hwf, hreq, hc⟩ |
    ⟨i, -, -, -, hc⟩
  · rw [hc]
    rcases decode_error v c hv with rfl | rfl
    · exact hv
    · exact hv
  · rw [hc]
    rcases rangeFault_cases i with hnone | hfault | hfault
    · exact absurd ((rangeFault_none_iff i).mp hnone) hwf
    · rw [hfault]
      exact ⟨i, hv, hfault⟩
    · rw [hfault]
      exact ⟨i, hv, hfault⟩
  · rw [hc]
    exact ⟨i, hv, hwf, hreq⟩
  · exact absurd hc h

theorem exists_of_check_none {v : Word} {x : HState} (h : check v x = .none) :
    ∃ i, decode v = .ok i ∧ i.WellFormed ∧ sequenceHolds i x := by
  rcases check_cases v x with ⟨c, hv, hc⟩ | ⟨i, -, hwf, hc⟩ | ⟨i, -, -, -, hc⟩ |
    ⟨i, hv, hwf, hseq, -⟩
  · rcases decode_error v c hv with rfl | rfl <;> exact nomatch hc.symm.trans h
  · exact absurd ((rangeFault_none_iff i).mp (hc.symm.trans h)) hwf
  · exact nomatch hc.symm.trans h
  · exact ⟨i, hv, hwf, hseq⟩

theorem present_engineInv {s : State} (v : Word) (hs : EngineInv s)
    (hreset : s.resetAsserted = false) : EngineInv (present v s) := by
  rcases present_cases v s with ⟨-, h⟩ | ⟨-, hc, h⟩ | ⟨-, hc, h⟩
  · rw [h]
    exact hs.recordError (by decide) trivial
  · rw [h]
    exact {
      recordEmpty := hs.recordEmpty
      record := hs.record
      doneNotBusy := fun hd => nomatch hd
      pendingChecked := fun w hw => Option.some.inj hw ▸ exists_of_check_none hc
      resetIdle := fun hr => nomatch hreset.symm.trans hr }
  · rw [h]
    have hrecord := recordError_recordHolds hs.recordHolds hc (recordSound_check hc)
    exact RecordHolds.engineInv hrecord rfl

theorem writeStatus_engineInv {s : State} (v : Word) (hs : EngineInv s) :
    EngineInv (writeStatus v s) := by
  rw [writeStatus_eq]
  refine hs.congr ?_ rfl rfl rfl (fun h => (Bool.and_eq_true_iff.mp h).1)
  cases hb : v.getLsbD 2 with
  | true => simp [RecordHolds, recordSound]
  | false => simpa [RecordHolds] using hs.recordHolds

/-- A dropped write is recorded with the offset of CTRL or of a block register word (R243). -/
theorem recordSound_writeBusy {off : Offset} (halign : off.toNat % 4 = 0)
    (h : off = 0x004 ∨ inBlocks off = true) : recordSound .writeBusy (off.setWidth 32) := by
  have hnat : (off.setWidth 32).toNat = off.toNat := by
    have := off.isLt
    rw [BitVec.toNat_setWidth]
    omega
  rw [recordSound, hnat]
  refine ⟨halign, h.imp ?_ (inBlocks_iff off).mp⟩
  rintro rfl
  rfl

theorem hostWrite_engineInv {off : Offset} {s : State} (v : Word) (hs : EngineInv s)
    (halign : off.toNat % 4 = 0) (hreset : s.resetAsserted = false) :
    EngineInv (hostWrite off v s) := by
  rcases hostWrite_cases off v s with ⟨-, h⟩ | ⟨-, h⟩ | ⟨hoff, -, h⟩ | ⟨-, -, h⟩ | ⟨-, -, h⟩ |
    ⟨-, -, -, -, h⟩ <;> rw [h]
  · exact present_engineInv v hs hreset
  · exact writeStatus_engineInv v hs
  · exact hs.recordError (by decide) (recordSound_writeBusy halign hoff)
  · exact hs.congr hs.recordHolds rfl rfl rfl id
  · exact hs.congr hs.recordHolds rfl rfl rfl id
  · exact hs

theorem hostRead_engineInv {s : State} (off : Offset) (hs : EngineInv s) :
    EngineInv (hostRead off s) := by
  obtain ⟨w, n, hread⟩ := hostRead_frame off s
  rw [hread]
  exact hs.congr hs.recordHolds rfl rfl rfl id

/-- The pending command was checked, so it completes and records nothing. -/
theorem runWord_engineInv {v : Word} {s t : State} (hs : EngineInv s) (hp : s.pending = some v)
    (h : runWord v s = .next t) : EngineInv t := by
  obtain ⟨i, hv, hwf, hseq⟩ := hs.pendingChecked v hp
  obtain ⟨u, hu, hframe⟩ := exec_completesWith hwf hseq
  rw [runWord_of_decode s hv, hu] at h
  obtain rfl := Host.Outcome.next.inj h
  exact (recordHolds_congr hs.recordHolds hframe.err hframe.errcode hframe.errcmd).engineInv
    hframe.pending

/-- Every move keeps the invariant. -/
theorem makeMove_engineInv {mv : Move} {s t : State} (hs : EngineInv s)
    (h : makeMove mv s = .next t) : EngineInv t := by
  cases makeMove_effect h with
  | assertsReset => exact RecordHolds.engineInv hs.recordHolds rfl
  | releasesReset => exact RecordHolds.engineInv invariantHoldsAtReset.recordHolds rfl
  | runs v t hp hrun => exact runWord_engineInv hs hp hrun
  | reads off => exact hostRead_engineInv off hs
  | writes off v halign hreset => exact hostWrite_engineInv v hs halign hreset
  | stays => exact hs

/-- Settles O43: a step is one move, every move keeps the invariant, and the schedule is no part of
it. -/
theorem everyStepKeepsTheInvariant : Obligations.EveryStepKeepsTheInvariant := by
  intro s t hs h
  rcases step_cases s with ⟨-, hstep⟩ | ⟨mv, rest, -, hstep⟩ <;> rw [hstep] at h
  · exact makeMove_engineInv hs h
  · have hrest : EngineInv { s with schedule := rest } := hs.congr hs.recordHolds rfl rfl rfl id
    exact makeMove_engineInv hrest h

/-! ### Accepted commands (R190, R240, R249) -/

/-- Settles O36: the frame of each command, proved for the window in 20_memory.md's part. -/
theorem everyAcceptedCommandCompletes : Obligations.EveryAcceptedCommandCompletes :=
  fun _ _ hwf hseq => exec_completesWith hwf hseq

/-- Settles O44: the invariant says the pending word was checked, so its run is a completion. -/
theorem acceptedCommandsCompleteWithoutError :
    Obligations.AcceptedCommandsCompleteWithoutError := by
  intro s v rest hs hreset hp hsched
  obtain ⟨i, hv, hwf, hseq⟩ := hs.pendingChecked v hp
  obtain ⟨t, ht, hframe⟩ := exec_completesWith (s := { s with schedule := rest }) hwf hseq
  refine ⟨i, t, hv, ?_, hframe⟩
  rw [step_of_schedule_cons hsched, ← ht]
  exact makeMove_sequencer_of_decode hreset hp hv

/-! ### Accesses while BUSY = 1 (R243) -/

theorem hostWrite_dropped {off : Offset} {s : State} (v : Word) (hb : s.busy = true)
    (h : off = 0x004 ∨ (0x100 ≤ off.toNat ∧ off.toNat < 0x300)) :
    hostWrite off v s = recordError .writeBusy (off.setWidth 32) s := by
  have hne : off ≠ 0x008 ∧ off ≠ 0x00C := by
    rcases h with rfl | ⟨hlo, -⟩
    · decide
    · obtain ⟨-, -, h8, hC, -⟩ := ne_of_toNat_ge (off := off) (by omega)
      exact ⟨h8, hC⟩
  rw [hostWrite, if_neg hne.1, if_neg hne.2, if_pos (h.imp_right (inBlocks_iff off).mpr), if_pos hb]

/-- A write to ID, to ERRCMD, to DIGEST or to a reserved offset is ignored (R36, R40 to R42). -/
theorem hostWrite_ignored_elsewhere {off : Offset} (v : Word) (s : State)
    (h : off = 0x000 ∨ off = 0x010 ∨ (0x014 ≤ off.toNat ∧ off.toNat < 0x100) ∨
      0x300 ≤ off.toNat) : hostWrite off v s = s := by
  rcases h with rfl | rfl | ⟨hlo, hhi⟩ | hlo
  · rfl
  · rfl
  · exact hostWrite_ignored_above v s hlo (inBlocks_eq_false (.inl hhi))
  · exact hostWrite_ignored_above v s (by omega) (inBlocks_eq_false (.inr hlo))

/-- While BUSY = 1 a write touches the record and STATUS alone. -/
theorem hostWrite_busy_frame {s : State} (off : Offset) (v : Word) (hb : s.busy = true) :
    (hostWrite off v s).pending = s.pending ∧ (hostWrite off v s).regs = s.regs ∧
      (hostWrite off v s).ctrl = s.ctrl ∧ (hostWrite off v s).hstate = s.hstate ∧
      (hostWrite off v s).scratch = s.scratch := by
  rcases hostWrite_cases off v s with ⟨-, h⟩ | ⟨-, h⟩ | ⟨-, -, h⟩ | ⟨-, hnb, -⟩ | ⟨-, hnb, -⟩ |
    ⟨-, -, -, -, h⟩
  · rw [h, present_of_busy v hb]
    simp
  · rw [h, writeStatus_eq]
    simp
  · rw [h]
    simp
  · exact nomatch hnb.symm.trans hb
  · exact nomatch hnb.symm.trans hb
  · rw [h]
    simp

/-- Settles O45: each offset of a write is one of the four clauses, and a read is performed as
always. -/
theorem busyAccessesAreDropped : Obligations.BusyAccessesAreDropped := by
  intro s off v hb halign
  obtain ⟨w, n, hread⟩ := hostRead_frame off s
  refine ⟨hostWrite off v s, hostRead off s, hostAccess_write v s halign,
    hostAccess_read s halign, ?_, hostWrite_dropped v hb, ?_, hostWrite_ignored_elsewhere v s, ?_,
    hostWrite_busy_frame off v hb, ?_⟩
  · rintro rfl
    exact present_of_busy v hb
  · rintro rfl
    exact hostWrite_status v s
  · rw [hread]
    exact ⟨rfl, rfl, rfl⟩
  · rw [hread]
    exact ⟨rfl, rfl, rfl, rfl, rfl⟩

/-! ### The error record (R242, R250) -/

/-- The error record of `s` is set and `t` has the same one. -/
def KeepsRecord (s t : State) : Prop :=
  t.err = true ∧ t.errcode = s.errcode ∧ t.errcmd = s.errcmd

section
variable {s : State} (herr : s.err = true)
include herr

theorem present_keepsRecord (v : Word) : KeepsRecord s (present v s) := by
  rcases present_cases v s with ⟨-, h⟩ | ⟨-, -, h⟩ | ⟨-, -, h⟩ <;> rw [h]
  · rw [recordError_kept _ v s herr]
    exact ⟨herr, rfl, rfl⟩
  · exact ⟨herr, rfl, rfl⟩
  · rw [reject, recordError_kept _ v s herr]
    exact ⟨herr, rfl, rfl⟩

theorem hostWrite_keepsRecord (off : Offset) (v : Word)
    (hclear : off = 0x00C → v.getLsbD 2 = false) :
    KeepsRecord s (hostWrite off v s) := by
  rcases hostWrite_cases off v s with ⟨-, h⟩ | ⟨hoff, h⟩ | ⟨-, -, h⟩ | ⟨-, -, h⟩ | ⟨-, -, h⟩ |
    ⟨-, -, -, -, h⟩ <;> rw [h]
  · exact present_keepsRecord herr v
  · rw [writeStatus_eq, hclear hoff]
    simp [KeepsRecord, herr]
  · rw [recordError_kept _ _ s herr]
    exact ⟨herr, rfl, rfl⟩
  · exact ⟨herr, rfl, rfl⟩
  · exact ⟨herr, rfl, rfl⟩
  · exact ⟨herr, rfl, rfl⟩

theorem runWord_keepsRecord {v : Word} {t : State} (h : runWord v s = .next t) :
    KeepsRecord s t := by
  rcases runWord_cases h with ⟨i, -, hframe⟩ | ⟨code, w, hrej⟩
  · exact ⟨hframe.err.trans herr, hframe.errcode, hframe.errcmd⟩
  · have hrecord := hrej.record
    rwa [if_pos herr] at hrecord

end

/-- Settles O46: the record is kept by each effect of a move, but by a clearing STATUS write and by
reset. -/
theorem firstErrorIsKept : Obligations.FirstErrorIsKept := by
  refine ⟨recordError_first, fun mv s t herr h hreset hclear => ?_, fun v s hv => ?_⟩
  · have hsame : KeepsRecord s s := ⟨herr, rfl, rfl⟩
    cases makeMove_effect h with
    | assertsReset => exact hsame
    | releasesReset => exact absurd rfl hreset
    | runs v t hp hrun => exact runWord_keepsRecord herr hrun
    | reads off =>
      obtain ⟨w, n, hread⟩ := hostRead_frame off s
      rw [hread]
      exact hsame
    | writes off v =>
      refine hostWrite_keepsRecord herr off v fun hoff => hclear v ?_
      rw [hoff]
    | stays => exact hsame
  · refine ⟨writeStatus v s, hostAccess_write v s rfl, ?_⟩
    rw [writeStatus_eq, hv]
    simp

/-! ### IRQ (R246, R247) -/

theorem irq_of_done {s : State} (h : s.done = true) : irq s = s.ctrl.getLsbD 0 := by
  rw [irq, h, Bool.true_and, State.ie]

theorem irq_of_not_done {s : State} (h : s.done = false) : irq s = false := by
  rw [irq, h, Bool.false_and]

/-- Settles O49: a completion and a rejection set DONE, an acceptance and a STATUS write clear it,
and none of them changes CTRL. -/
theorem irqFollowsDone : Obligations.IrqFollowsDone := by
  intro s
  refine ⟨Bool.and_eq_true_iff, fun i => ?_, fun v hb hc => ?_, fun v hb hc => ?_, fun v hv => ?_⟩
  · obtain ⟨t, ht, hctrl, -, hdone, -⟩ := noCommandStopsOrChangesCtrl i s
    exact ⟨t, ht, by rw [irq_of_done hdone, hctrl]⟩
  · rw [← check_eq_checkOrder] at hc
    rw [present_of_check_ne hb hc, irq_of_done (reject_done _ v s), reject_ctrl]
  · rw [← check_eq_checkOrder] at hc
    rw [present_of_check_none hb hc, irq_of_not_done (accept_done v s)]
  · refine irq_of_not_done ?_
    rw [writeStatus_eq, hv]
    simp

/-! ### A saved hash (R256) -/

/-- Settles O28: HRESUME changes no register, so the chain state and M put back are those HBLK and
HFIN read. -/
theorem hresumeContinuesASavedHash : Obligations.HresumeContinuesASavedHash := by
  intro s u hs hchain hm
  obtain ⟨v, hv, hframe⟩ := hresumeReentersAccum u
  have hreg : ∀ r, v.reg r = u.reg r := fun r => hframe.regs r List.not_mem_nil
  have hvchain : v.chain = s.chain := by
    rw [← hchain]
    exact (chain_eq_iff v u.chain).mpr ⟨hreg .h, hreg .n, hreg .sigma⟩
  have hvm : v.reg .m = s.reg .m := (hreg .m).trans hm
  refine ⟨v, hv, ?_, fun imm himm => ?_⟩
  · obtain ⟨a, ha, hac, haf⟩ := exec_hblk_next hs
    obtain ⟨b, hb, hbc, hbf⟩ := exec_hblk_next hframe.hstate
    refine ⟨a, b, ha, hb, ?_, hbf.hstate.trans haf.hstate.symm⟩
    rw [hbc, hac, hvchain, hvm]
  · obtain ⟨a, ha, hac, haf⟩ := exec_hfin_next himm hs
    obtain ⟨b, hb, hbc, hbf⟩ := exec_hfin_next himm hframe.hstate
    refine ⟨a, b, ha, hb, ?_, hbf.hstate.trans haf.hstate.symm⟩
    rw [hbc, hac, hvchain, hvm]

end Sys2Proof.Machine
end

section
/-! The proofs of the family 70_reset_and_hazards.md: reset (R270), free reads (R278), and the
compressions of a command (R279). -/

namespace Sys2Proof.Machine

/-! ### Free reads (R75, R278) -/

theorem windowRead_busy {off : Offset} {s : State} (hb : s.busy = true) (hlo : 0x100 ≤ off.toNat)
    (hhi : off.toNat < 0x340) : windowRead s off = none := by
  rw [windowRead_above s (by omega), if_pos hb, if_pos hb]
  by_cases hblocks : inBlocks off = true
  · rw [if_pos hblocks]
  · have hdigest : inDigest off = true := by
      rw [inBlocks_iff] at hblocks
      exact (inDigest_iff off).mpr (by omega)
    rw [if_neg hblocks, if_pos hdigest]

/-- Settles O55: a busy read of these offsets has no value of the engine, and the frame is that of
every read. -/
theorem busyBlockReadsAreFree : Obligations.BusyBlockReadsAreFree := by
  refine ⟨fun s off hb halign hlo hhi => ?_, fun s t off width h => ?_⟩
  · rw [hostAccess_read s halign, hostRead, windowRead_busy hb hlo hhi]
  · rcases hostAccess_cases ⟨.read, off, width⟩ s with ⟨-, hbad⟩ | ⟨-, -, hread⟩ | ⟨v, -, hkind, -⟩
    · exact nomatch hbad.symm.trans h
    · obtain rfl := Host.Outcome.next.inj (hread.symm.trans h)
      obtain ⟨w, n, hframe⟩ := hostRead_frame off s
      rw [hframe]
    · exact nomatch hkind

/-! ### Reset (R51, R270) -/

/-- Settles O58: a released reset leaves the reset state but for the model's own fields. -/
theorem resetPulseRestoresTheResetState : Obligations.ResetPulseRestoresTheResetState := by
  intro s rest hsched
  have hassert : step s = .next (assertReset { s with schedule := .reset false :: rest }) :=
    step_of_schedule_cons hsched
  have hrelease : step (assertReset { s with schedule := .reset false :: rest }) =
      .next (releaseReset (assertReset { s with schedule := rest })) := rfl
  have hstatus : statusWord .reset = 0 := by decide
  exact ⟨_, _, hassert, rfl, rfl, fun _ => rfl, rfl, hrelease, fun r => by cases r <;> rfl, rfl,
    hstatus, rfl, rfl, rfl, rfl, rfl, rfl⟩

theorem hstateAfter_eq_idle {i : Instr} {x : HState} (hx : x ≠ .idle)
    (h : hstateAfter i x = .idle) : i = .wipe := by
  cases i with
  | wipe => rfl
  | hinit => exact nomatch h
  | hblk => exact nomatch h
  | hfin imm => exact nomatch h
  | hresume => exact nomatch h
  | khash => exact nomatch h
  | hipad => exact nomatch h
  | houter => exact nomatch h
  | _ => exact absurd h hx

/-- A pending word that takes HSTATE to IDLE is WIPE's. -/
theorem eq_wipe_of_runWord {v : Word} {s t : State} (h : runWord v s = .next t)
    (hs : s.hstate ≠ .idle) (ht : t.hstate = .idle) : v = 0x0000003F := by
  rcases runWord_cases h with ⟨i, hv, hframe⟩ | ⟨code, w, hrej⟩
  · obtain rfl := hstateAfter_eq_idle hs (hframe.hstate.symm.trans ht)
    exact (encodeOfDecodeIsIdentity v .wipe hv).symm
  · exact absurd (hrej.hstate.symm.trans ht) hs

theorem runWord_ctrl {v : Word} {s t : State} (h : runWord v s = .next t) : t.ctrl = s.ctrl := by
  rcases runWord_cases h with ⟨i, -, hframe⟩ | ⟨code, w, hrej⟩
  · exact hframe.ctrl
  · exact hrej.ctrl

theorem hostRead_ctrl (off : Offset) (s : State) : (hostRead off s).ctrl = s.ctrl := by
  obtain ⟨w, n, hread⟩ := hostRead_frame off s
  rw [hread]

theorem hostWrite_ctrl_of_ne {off : Offset} (v : Word) (s : State) (hoff : off ≠ 0x004) :
    (hostWrite off v s).ctrl = s.ctrl := by
  rcases hostWrite_cases off v s with ⟨-, h⟩ | ⟨-, h⟩ | ⟨-, -, h⟩ | ⟨h4, -, -⟩ | ⟨-, -, h⟩ |
    ⟨-, -, -, -, h⟩
  · rw [h]
    rcases present_cases v s with ⟨-, h⟩ | ⟨-, -, h⟩ | ⟨-, -, h⟩ <;> simp [h]
  · rw [h, writeStatus_eq]
  · rw [h, recordError_ctrl]
  · exact absurd h4 hoff
  · rw [h, setReg_ctrl]
  · rw [h]

/-- Settles O59: among the effects of a move only WIPE's run and a release write IDLE over another
HSTATE, and only the CTRL write and a release change CTRL. -/
theorem onlyWipeAndResetReturnToIdle : Obligations.OnlyWipeAndResetReturnToIdle := by
  intro mv s t h
  cases makeMove_effect h with
  | assertsReset => exact ⟨fun hs ht => absurd ht hs, fun hne => absurd rfl hne⟩
  | releasesReset hreset => exact ⟨fun _ _ => .inr ⟨rfl, hreset⟩, fun _ => .inr ⟨rfl, hreset⟩⟩
  | runs v t hp hrun =>
    refine ⟨fun hs ht => .inl ⟨rfl, ?_⟩, fun hne => absurd (runWord_ctrl hrun) hne⟩
    rw [hp, eq_wipe_of_runWord hrun hs ht]
  | reads off =>
    refine ⟨fun hs ht => ?_, fun hne => absurd (hostRead_ctrl off s) hne⟩
    exact absurd ((hostRead_hstate off s).symm.trans ht) hs
  | writes off v =>
    refine ⟨fun hs ht => absurd ((hostWrite_hstate off v s).symm.trans ht) hs, fun hne => ?_⟩
    have hoff : off = 0x004 := not_not.mp (mt (hostWrite_ctrl_of_ne v s) hne)
    exact .inl ⟨v, by rw [hoff]⟩
  | stays => exact ⟨fun hs ht => absurd ht hs, fun hne => absurd rfl hne⟩

/-! ### Compressions (R279) -/

/-- `n` compressions, linked, the last of which gives `v`. -/
structure CallsGive (calls : List GCall) (n : Nat) (v : Block) : Prop where
  count : calls.length = n
  linked : callsLinked calls
  result : ∀ last, calls.getLast? = some last → v = callResult last

theorem blockCalls_give (c : Chain) (m : Block) :
    CallsGive (blockCalls c m) 1 (chainBlock c m).h where
  count := rfl
  linked := trivial
  result := by
    rintro last ⟨⟩
    rfl

theorem finalCalls_give (c : Chain) (m : Block) (n : Nat) :
    CallsGive (finalCalls c m n) 3 (chainFinal c m n).h where
  count := rfl
  linked := ⟨rfl, rfl, trivial⟩
  result := by
    rintro last ⟨⟩
    rfl

/-- The compression of Block followed by calls that start from the value it gave. -/
theorem CallsGive.blockCalls_append {calls : List GCall} {n : Nat} {v : Block}
    (h : CallsGive calls n v) (c : Chain) (m : Block)
    (hhead : calls.head?.map GCall.h = some (chainBlock c m).h) :
    CallsGive (blockCalls c m ++ calls) (n + 1) v := by
  cases calls with
  | nil => exact nomatch hhead
  | cons first rest =>
    exact {
      count := congrArg (· + 1) h.count
      linked := ⟨Option.some.inj hhead, h.linked⟩
      result := fun last hlast => h.result last (List.getLast?_cons_cons.symm.trans hlast) }

/-- The opad block, the inner digest as a block of its own under BNDPAD = 1, and Final (R214). -/
theorem outerCalls_give (bndpad : Bool) (key inner : Block) :
    CallsGive (outerCalls bndpad key inner) (if bndpad then 5 else 4)
      (outerHash bndpad key inner).h := by
  cases bndpad with
  | false =>
    exact (finalCalls_give _ inner 512).blockCalls_append (chainInit 0) (outerPad key) rfl
  | true =>
    have hinner := (finalCalls_give (chainBlock (chainBlock (chainInit 0) (outerPad key)) inner)
      0 0).blockCalls_append (chainBlock (chainInit 0) (outerPad key)) inner rfl
    exact hinner.blockCalls_append (chainInit 0) (outerPad key) rfl

/-- Settles O41: the compressions of HBLK, HFIN and HOUTER give the H of the chain state they leave.
-/
theorem compressionsAreCounted : Obligations.CompressionsAreCounted := by
  intro i s hwf hseq
  cases i with
  | g rd ra rb =>
    obtain ⟨t, ht, hv, -⟩ := exec_g_next rd ra rb s
    refine ⟨rfl, rfl, trivial, t, ht, ?_⟩
    rintro last ⟨⟩
    exact hv
  | hblk =>
    obtain ⟨t, ht, hchain, -⟩ := exec_hblk_next (hseq .accum rfl)
    obtain ⟨hcount, hlinked, hresult⟩ := blockCalls_give s.chain (s.reg .m)
    exact ⟨hcount, rfl, hlinked, t, ht,
      fun last hlast => (congrArg Chain.h hchain).trans (hresult last hlast)⟩
  | hfin imm =>
    obtain ⟨t, ht, hchain, -⟩ := exec_hfin_next (of_decide_eq_true hwf) (hseq .accum rfl)
    obtain ⟨hcount, hlinked, hresult⟩ := finalCalls_give s.chain (s.reg .m) imm.toNat
    exact ⟨hcount, rfl, hlinked, t, ht,
      fun last hlast => (congrArg Chain.h hchain).trans (hresult last hlast)⟩
  | houter =>
    obtain ⟨t, ht, hchain, -⟩ := exec_houter_next (hseq .done rfl)
    obtain ⟨hcount, hlinked, hresult⟩ := outerCalls_give s.bndpad (s.reg .key) (s.reg .h)
    exact ⟨hcount, rfl, hlinked, t, ht,
      fun last hlast => (congrArg Chain.h hchain).trans (hresult last hlast)⟩
  | _ =>
    obtain ⟨t, ht, -⟩ := exec_completesWith hwf hseq
    exact ⟨rfl, rfl, trivial, t, ht, fun _ hlast => nomatch hlast⟩

end Sys2Proof.Machine
end
